-- ==== Sys2Proof/Word.lean ====
section
/-! DEFINITION. The widths of the machine: a byte, a bus word, an offset in the register window, and the two
shapes of stored data (a 256-entry byte table, four column words). -/

namespace Sys2Proof

/-- A byte, 8 bits: an element of GF(2^8), a table entry or a table index (R9, R130). -/
abbrev Byte := BitVec 8

/-- A bus word, 32 bits (R9, R20). -/
abbrev Word := BitVec 32

/-- A byte offset in the 64-byte register window, 6 bits (R50). -/
abbrev Offset := BitVec 6

/-- One of the two internal tables, 256 entries of 8 bits (R6, R26). -/
abbrev Table := Vector Byte 256

/-- Four 32-bit registers, one 4x4 byte matrix: entry `c` is STATE`c` or RKEY`c` (R24, R25). -/
abbrev Columns := Vector Word 4

/-- A block of 16 bytes `b0 .. b15`, in block order (R24). -/
abbrev Block := Vector Byte 16

end Sys2Proof
end

