-- ==== Sys2Proof/Syntax.lean ====
section
/-! DEFINITION. The commands (one constructor per row of spec/opcode_table.json), the registers of the window, and
the inputs the outside world can give the block. -/

namespace Sys2Proof

/-- The sixteen commands of R72. Operands are unsigned bytes, `a = w[15:8]` and `b = w[23:16]` (R71). -/
inductive Instr where
  /-- R103. -/
  | nop
  /-- R132: `gmul(a, b)`. -/
  | gfmul (a b : Byte)
  /-- R134: `ginv(a)`. -/
  | gfinv (a : Byte)
  /-- R140. -/
  | subbytes
  /-- R141. -/
  | invsubbytes
  /-- R142. -/
  | shiftrows
  /-- R143. -/
  | invshiftrows
  /-- R145. -/
  | mixcolumns
  /-- R146. -/
  | invmixcolumns
  /-- R147. -/
  | addroundkey
  /-- R160. -/
  | encround
  /-- R161. -/
  | decround
  /-- R112. -/
  | tblclr
  /-- R113, R114. -/
  | tblcommit
  /-- R115: look up `SBOX[a]`. -/
  | sboxrd (a : Byte)
  /-- R116: look up `INV[a]`. -/
  | invrd (a : Byte)
  deriving DecidableEq, Repr

/-- The host-visible registers of R20; `state c` is STATE`c`, `rkey c` is RKEY`c`. -/
inductive Reg where
  | cmd
  | status
  | result
  | tblData
  | tblCount
  | state (c : Fin 4)
  | rkey (c : Fin 4)
  deriving DecidableEq, Repr

/-- What the outside world does to the block: one bus access of the host (R50; `width` in bits, R53), or the
reset input (R190). -/
inductive Input where
  | read (off : Offset) (width : Nat)
  | write (off : Offset) (width : Nat) (v : Word)
  | reset
  deriving DecidableEq, Repr

end Sys2Proof
end

