-- ==== Sys2Proof/WellFormed.lean ====
section
/-! DEFINITION. What is well formed, said independently of the decoder and of the bus: a command word (R70, R72,
R74) and a host access (R53). A term of `Instr` is well formed by its type: its operands are bytes (R71), and every
byte is a legal operand. -/

namespace Sys2Proof

/-- Whether the table of R72 lists the opcode. -/
def opcodeListed (op : Nat) : Bool :=
  op ≤ 0x02 || (0x10 ≤ op && op ≤ 0x16) || op == 0x18 || op == 0x19 || (0x20 ≤ op && op ≤ 0x23)

/-- Whether the field A is an operand of the opcode (R72, column A): GFMUL, GFINV, SBOXRD, INVRD. -/
def opcodeTakesA (op : Nat) : Bool :=
  op == 0x01 || op == 0x02 || op == 0x22 || op == 0x23

/-- Whether the field B is an operand of the opcode (R72, column B): GFMUL only. -/
def opcodeTakesB (op : Nat) : Bool :=
  op == 0x01

/-- A legal command word by R74: a listed opcode, RSV zero, A and B zero wherever R72 requires it. The fields are
read by division, as R70 numbers the bits. -/
def legalWord (w : Word) : Bool :=
  let op := w.toNat % 256
  let a := w.toNat / 2 ^ 8 % 256
  let b := w.toNat / 2 ^ 16 % 256
  let rsv := w.toNat / 2 ^ 24
  opcodeListed op && rsv == 0 && (opcodeTakesA op || a == 0) && (opcodeTakesB op || b == 0)

/-- The reserved offsets of R53 (c). -/
def reservedOffset (off : Offset) : Bool :=
  off.toNat == 0x14 || off.toNat == 0x18 || off.toNat == 0x1C

/-- A host access that R53 does not refuse: aligned, 32 bits wide, not at a reserved offset. -/
def legalAccess (off : Offset) (width : Nat) : Bool :=
  off.toNat % 4 == 0 && width == 32 && !reservedOffset off

/-- A well-formed input: an access that is not refused, or reset. -/
def Input.wellFormed : Input → Bool
  | .read off width => legalAccess off width
  | .write off width _ => legalAccess off width
  | .reset => true

end Sys2Proof
end

