-- ==== Sys2Proof/Decode.lean ====
section
/-! DEFINITION. Decoding a command word (R70 to R74) by the mask and match table of R72, and the encoder beside it
(R75). Both are total; a word that names no command is rejected by the name of what is wrong with it. -/

namespace Sys2Proof

/-- The fields OP, A, B, RSV of R70. -/
def opField (w : Word) : Byte := w.extractLsb' 0 8

/-- A = w[15:8] (R70). -/
def aField (w : Word) : Byte := w.extractLsb' 8 8

/-- B = w[23:16] (R70). -/
def bField (w : Word) : Byte := w.extractLsb' 16 8

/-- RSV = w[31:24] (R70). -/
def rsvField (w : Word) : Byte := w.extractLsb' 24 8

/-- One row of the opcode map of R72: a word selects it when `w & mask = match`, and it gives the command with the
word's operands. -/
structure Row where
  mask : Word
  pattern : Word
  build : Byte → Byte → Instr

/-- Whether a word selects a row (R72). -/
def Row.selects (r : Row) (w : Word) : Bool := w &&& r.mask == r.pattern

/-- A row with A = 0 and B = 0: the mask is 0xFFFFFFFF (R72). -/
def plainRow (op : Word) (i : Instr) : Row := { mask := 0xFFFFFFFF#32, pattern := op, build := fun _ _ => i }

/-- A row with A an operand and B = 0: the mask is 0xFFFF00FF (R72). -/
def indexRow (op : Word) (f : Byte → Instr) : Row :=
  { mask := 0xFFFF00FF#32, pattern := op, build := fun a _ => f a }

/-- The opcode map of R72, in its order. -/
def rows : List Row :=
  [ plainRow 0x00#32 .nop,
    { mask := 0xFF0000FF#32, pattern := 0x00000001#32, build := .gfmul },
    indexRow 0x02#32 .gfinv,
    plainRow 0x10#32 .subbytes,
    plainRow 0x11#32 .invsubbytes,
    plainRow 0x12#32 .shiftrows,
    plainRow 0x13#32 .invshiftrows,
    plainRow 0x14#32 .mixcolumns,
    plainRow 0x15#32 .invmixcolumns,
    plainRow 0x16#32 .addroundkey,
    plainRow 0x18#32 .encround,
    plainRow 0x19#32 .decround,
    plainRow 0x20#32 .tblclr,
    plainRow 0x21#32 .tblcommit,
    indexRow 0x22#32 .sboxrd,
    indexRow 0x23#32 .invrd ]

/-- Why a word is ILLEGAL: the three kinds R74 lists. The block reports all three as error 8 (R104). -/
inductive Illegal where
  /-- The opcode is not listed in R72. -/
  | undefinedOpcode
  /-- RSV is not zero. -/
  | nonzeroReserved
  /-- A or B is not zero where R72 requires 0. -/
  | nonzeroOperand
  deriving DecidableEq, Repr

/-- The name of what is wrong with a word that no row selects (R74). -/
def illegalReason (w : Word) : Illegal :=
  if rows.any (fun r => r.pattern == w &&& 0x000000FF#32) then
    if rsvField w = 0 then .nonzeroOperand else .nonzeroReserved
  else .undefinedOpcode

/-- R73: the first row the word selects, with a = w[15:8] and b = w[23:16]; otherwise ILLEGAL. -/
def decode (w : Word) : Except Illegal Instr :=
  match rows.find? (fun r => r.selects w) with
  | some r => .ok (r.build (aField w) (bField w))
  | none => .error (illegalReason w)

/-- The opcode of a command (R72). -/
def Instr.opcode : Instr → Byte
  | .nop => 0x00#8
  | .gfmul _ _ => 0x01#8
  | .gfinv _ => 0x02#8
  | .subbytes => 0x10#8
  | .invsubbytes => 0x11#8
  | .shiftrows => 0x12#8
  | .invshiftrows => 0x13#8
  | .mixcolumns => 0x14#8
  | .invmixcolumns => 0x15#8
  | .addroundkey => 0x16#8
  | .encround => 0x18#8
  | .decround => 0x19#8
  | .tblclr => 0x20#8
  | .tblcommit => 0x21#8
  | .sboxrd _ => 0x22#8
  | .invrd _ => 0x23#8

/-- The byte in field A: the first operand, or 0 (R70, R75). -/
def Instr.operandA : Instr → Byte
  | .gfmul a _ => a
  | .gfinv a => a
  | .sboxrd a => a
  | .invrd a => a
  | .nop | .subbytes | .invsubbytes | .shiftrows | .invshiftrows | .mixcolumns | .invmixcolumns | .addroundkey
  | .encround | .decround | .tblclr | .tblcommit => 0x00#8

/-- The byte in field B: GFMUL's second operand, or 0 (R70, R75). -/
def Instr.operandB : Instr → Byte
  | .gfmul _ b => b
  | .nop | .gfinv _ | .subbytes | .invsubbytes | .shiftrows | .invshiftrows | .mixcolumns | .invmixcolumns
  | .addroundkey | .encround | .decround | .tblclr | .tblcommit | .sboxrd _ | .invrd _ => 0x00#8

/-- R75: `encode` sets OP, A and B, and every other field to 0. -/
def encode (i : Instr) : Word := 0x00#8 ++ i.operandB ++ i.operandA ++ i.opcode

/-- The command word whose `nbits` low bits are `w`'s and whose other bits are 0. A command is one 32-bit word and
goes to CMD whole, so its bits need no laying out in memory (R62, R70). -/
def tableWord (nbits w : Nat) : Word := BitVec.ofNat 32 (w % 2 ^ nbits)

/-- The instruction the decoder reads from a table row's word. -/
def decodeTableWord (nbits w : Nat) : Option Instr :=
  match decode (tableWord nbits w) with
  | .ok i => some i
  | .error _ => none

end Sys2Proof
end

