-- ==== Sys2Proof/Machine/State.lean ====
section
/-! DEFINITION. The state of the block (R34), the host's side of its one port, the reasons a step can stop, and
the state after reset (R190). -/

namespace Sys2Proof.Machine

/-- The reasons the host's run faults. -/
inductive Fault where
  /-- R53, R173: the bus refused an access (misaligned, not 32 bits wide, or at a reserved offset). Raised by
  `busRead` and `busWrite`. Safe: R173 says that a model records it as a fault of the host's run. -/
  | busError
  /-- R113, code 4: a value that occurs at no index, with no value that occurs twice. Raised by `execTblcommit` only;
  no state reaches it (R174), and R174 makes it a fault and never a value. Safe. -/
  | missingValue
  /-- R114, code 5: `INV[SBOX[x]] ≠ x` after the build, "an internal invariant breach, treated as fatal" (R174).
  Raised by `execTblcommit` only; no state reaches it. Safe. -/
  | inversionError
  deriving DecidableEq, Repr

/-- The reasons there is no step. -/
inductive Refusal where
  /-- An arm of `exec` without a meaning. Safe: nothing is claimed. No arm of this model raises it. -/
  | notModelled (mnemonic : String)
  /-- R51: an access outside `BASE .. BASE+0x3F`, for which a model of the block has no step. Raised by
  `platformAccess`. Safe: the model stops where the platform would go on. -/
  | outsideWindow
  deriving DecidableEq, Repr

/-- The machine: the tuple of R34, then the model's own two fields (`pending`, `returned`). -/
structure State where
  /-- STATUS.TV, bit 0: a table has passed validation (R27, R29). -/
  tv : Bool
  /-- STATUS.OOR, bit 1: a value above 255 was written to TBL_DATA since the last TBLCLR or reset (R27, R30). -/
  oor : Bool
  /-- STATUS.LASTERR, bits 7:4: the error code of the last command, 0 for success (R27, R28). -/
  lastErr : BitVec 4
  /-- STATUS.ERRSEEN, bit 8: some command failed since it was last cleared (R27, R179). -/
  errSeen : Bool
  /-- RESULT[7:0]; RESULT[31:8] is always zero and is not stored (R22). -/
  result : Byte
  /-- TBL_COUNT[15:0]; TBL_COUNT[31:16] is always zero and is not stored (R32). -/
  tblCount : BitVec 16
  /-- STATE0..STATE3: entry `c` is STATE`c` (R24). -/
  cipher : Columns
  /-- RKEY0..RKEY3: entry `c` is RKEY`c` (R25). -/
  rkey : Columns
  /-- SBOX[0..255] (R26). -/
  sbox : Table
  /-- INV[0..255] (R26). -/
  inv : Table
  /-- The model's own (log 1): what the host will still do, oldest first. -/
  pending : List Input
  /-- The model's own (log 2): the words the host's reads have returned, newest first. -/
  returned : List Word
  deriving DecidableEq, Repr

/-- The machine right after reset (R190): every register and field 0. DESIGN CHOICE (log 4): the tables, which
R190 leaves unspecified and R191 shows to be unobservable, hold 0; nothing pending and nothing returned. -/
def State.reset : State where
  tv := false
  oor := false
  lastErr := 0#4
  errSeen := false
  result := 0#8
  tblCount := 0#16
  cipher := Vector.replicate 4 0#32
  rkey := Vector.replicate 4 0#32
  sbox := Vector.replicate 256 0#8
  inv := Vector.replicate 256 0#8
  pending := []
  returned := []

end Sys2Proof.Machine
end

