-- ==== Sys2Proof/Machine/Flags.lean ====
section
/-! DEFINITION. The error codes (R170) and the STATUS register as the host reads and writes it (R27). -/

namespace Sys2Proof.Machine

/-- The errors a command reports to the host in STATUS.LASTERR (R170). Codes 4 and 5 are not here: R174 makes them
faults. -/
inductive ErrCode where
  | wrongLength
  | outOfRange
  | duplicateValue
  | invZero
  | noTable
  | illegalCommand
  deriving DecidableEq, Repr

/-- The numeric code of an error (R170). -/
def errNumber : ErrCode → BitVec 4
  | .wrongLength => 1#4
  | .outOfRange => 2#4
  | .duplicateValue => 3#4
  | .invZero => 6#4
  | .noTable => 7#4
  | .illegalCommand => 8#4

/-- One flag as a bit. -/
def flagBit (b : Bool) : BitVec 1 := BitVec.ofBool b

/-- STATUS as a word: ERRSEEN in bit 8, LASTERR in bits 7:4, OOR in bit 1, TV in bit 0, every other bit 0
(R27, R54). -/
def statusWord (s : State) : Word :=
  (flagBit s.errSeen ++ s.lastErr ++ 0b00#2 ++ flagBit s.oor ++ flagBit s.tv).setWidth 32

/-- A host write of `v` to STATUS (R27, R55): bit 8 written as 1 clears ERRSEEN, and every other bit is ignored. It is
the only way back from an error (R179: there is no trap return). -/
def writeStatus (v : Word) (s : State) : State :=
  if v.getLsbD 8 then { s with errSeen := false } else s

end Sys2Proof.Machine
end

