-- ==== Sys2Proof/Machine/Operands.lean ====
section
/-! DEFINITION. Operand forms: the 4x4 byte matrix in four column words (R24, R25), byte lanes (R52), a block of 16
bytes (R24), and the tables indexed by a byte (R26). -/

namespace Sys2Proof.Machine

/-- Byte lane `j` of a word: bits `8j+7 : 8j` (R52). -/
def lane (w : Word) (j : Fin 4) : Byte := w.extractLsb' (8 * j.val) 8

/-- The word with lanes `b0`, `b1`, `b2`, `b3`: `{b3, b2, b1, b0}` (R24). -/
def packWord (b0 b1 b2 b3 : Byte) : Word := b3 ++ b2 ++ b1 ++ b0

/-- `m[r][c]`: lane `r` of column register `c` (R24, R25). -/
def matrixByte (m : Columns) (r c : Fin 4) : Byte := lane m[c] r

/-- The column registers of the matrix with byte `f r c` at row `r`, column `c` (R24). -/
def ofBytes (f : Fin 4 → Fin 4 → Byte) : Columns :=
  let column (c : Fin 4) : Word := packWord (f 0 c) (f 1 c) (f 2 c) (f 3 c)
  #v[column 0, column 1, column 2, column 3]

/-- `s[r][c]`, a byte of the cipher state (R24). -/
def State.cipherByte (s : State) (r c : Fin 4) : Byte := matrixByte s.cipher r c

/-- `k[r][c]`, a byte of the round key (R25). -/
def State.keyByte (s : State) (r c : Fin 4) : Byte := matrixByte s.rkey r c

/-- The column registers that hold a block: block byte `i` is at row `i mod 4`, column `i div 4` (R24). -/
def ofBlock (b : Block) : Columns := ofBytes fun r c => b[4 * c.val + r.val]

/-- The block that four column registers hold (R24). -/
def toBlock (m : Columns) : Block :=
  Vector.ofFn fun i : Fin 16 => matrixByte m ⟨i.val % 4, by omega⟩ ⟨i.val / 4, by omega⟩

/-- Reading a table at a byte index (R26). -/
def tableGet (t : Table) (i : Byte) : Byte := t[i.toNat]'i.isLt

/-- Writing a table at a byte index (R26). -/
def tablePut (t : Table) (i v : Byte) : Table := t.set i.toNat v i.isLt

/-- The bytes 0x00 .. 0xFF in order. -/
def allBytes : List Byte := (List.range 256).map (BitVec.ofNat 8)

end Sys2Proof.Machine
end

