-- ==== Sys2Proof/Machine/Ops.lean ====
section
/-! DEFINITION. The shared operations over registers: how a command completes (R101) and how it fails (R102), the
writes of each register, and the table-valid check (R170, code 7). -/

namespace Sys2Proof.Machine

/-- R101: a command that completes writes LASTERR 0 and leaves ERRSEEN. -/
def complete (s : State) : State := { s with lastErr := 0#4 }

/-- R102, `raise Err(code)`: the one way a command fails. LASTERR gets the code, ERRSEEN is set, nothing else changes.
There is no trap entry (R178). -/
def raiseErr (e : ErrCode) (s : State) : State := { s with lastErr := errNumber e, errSeen := true }

/-- Writing RESULT[7:0] (R22). -/
def writeResult (v : Byte) (s : State) : State := { s with result := v }

/-- Writing STATE0..STATE3 at once (43_transforms.md, the sentence before R140). -/
def writeCipher (m : Columns) (s : State) : State := { s with cipher := m }

/-- A host write of STATE`c` (R55). -/
def writeStateReg (c : Fin 4) (v : Word) (s : State) : State := { s with cipher := s.cipher.set c.val v c.isLt }

/-- A host write of RKEY`c` (R55). -/
def writeKeyReg (c : Fin 4) (v : Word) (s : State) : State := { s with rkey := s.rkey.set c.val v c.isLt }

/-- A word goes back to the host (R54; log 2). -/
def pushReturned (v : Word) (s : State) : State := { s with returned := v :: s.returned }

/-- The outcome of a command that completes in the given state (R100, R101). -/
def completed (s : State) : Host.Outcome State Fault Refusal := .next (complete s)

/-- The outcome of a command that fails (R102). -/
def failed (e : ErrCode) (s : State) : Host.Outcome State Fault Refusal := .next (raiseErr e s)

/-- A command that needs a validated table fails with NoTable when TV = 0, and otherwise completes in the state `done`
(R115, R116, R140, R141, R160, R161). -/
def withTable (done s : State) : Host.Outcome State Fault Refusal :=
  if s.tv then completed done else failed .noTable s

end Sys2Proof.Machine
end

