-- ==== Sys2Proof/Machine/Command.lean ====
section
/-! DEFINITION. The command of no family: NOP (R103). The illegal command (R104) is in `execute`, Machine/Bus.lean. -/

namespace Sys2Proof.Machine

/-- R103: no effect but LASTERR 0. -/
def execNop (s : State) : Host.Outcome State Fault Refusal := completed s

end Sys2Proof.Machine
end

