-- ==== Sys2Proof/Machine/Field.lean ====
section
/-! DEFINITION. Arithmetic in GF(2^8) over the polynomial 0x11B (R130, R131, R133). -/

namespace Sys2Proof.Machine

/-- R130: doubling, multiplication by x. -/
def xtime (a : Byte) : Byte := (a <<< 1) ^^^ (if a.getLsbD 7 then 0x1B#8 else 0x00#8)

/-- The body of R131's loop, on the pair `(p, a)`. -/
def gmulStep (b : Byte) (pa : Byte × Byte) (i : Nat) : Byte × Byte :=
  (if b.getLsbD i then pa.1 ^^^ pa.2 else pa.1, xtime pa.2)

/-- R131: the product of `a` and `b`, by the loop `for i in 0..7`. -/
def gmul (a b : Byte) : Byte := ((List.range 8).foldl (gmulStep b) (0x00#8, a)).1

/-- R133: for `a ≠ 0` the unique byte `a'` with `gmul(a, a') = 1`, found by search over the 256 candidates, one of the
two methods R133 names. R133 gives `ginv(0)` no value: no candidate qualifies, the default is returned, and GFINV
never asks for it (R134; log 11). -/
def ginv (a : Byte) : Byte := (allBytes.find? fun x => gmul a x == 0x01#8).getD 0x00#8

end Sys2Proof.Machine
end

