-- ==== Sys2Proof/Machine/Gf.lean ====
section
/-! DEFINITION. The two field commands (R132, R134). -/

namespace Sys2Proof.Machine

/-- R132: RESULT gets `gmul(a, b)`. -/
def execGfmul (a b : Byte) (s : State) : Host.Outcome State Fault Refusal :=
  completed (writeResult (gmul a b) s)

/-- R134: InvZero when `a = 0`; otherwise RESULT gets `ginv(a)`. -/
def execGfinv (a : Byte) (s : State) : Host.Outcome State Fault Refusal :=
  if a = 0x00#8 then failed .invZero s else completed (writeResult (ginv a) s)

end Sys2Proof.Machine
end

