-- ==== Sys2Proof/Machine/Transforms.lean ====
section
/-! DEFINITION. The round transforms on the 4x4 byte matrix and the seven commands that apply one each
(R140 to R147). Every new byte is computed from the old matrix. -/

namespace Sys2Proof.Machine

/-- R140 and R141: every byte through a table. -/
def subBytes (t : Table) (m : Columns) : Columns := ofBytes fun r c => tableGet t (matrixByte m r c)

/-- R142: `s'[r][c] <- s[r][(c + r) mod 4]`; addition in `Fin 4` is modulo 4. -/
def shiftRows (m : Columns) : Columns := ofBytes fun r c => matrixByte m r (c + r)

/-- R143: `s'[r][c] <- s[r][(c - r) mod 4]`; subtraction in `Fin 4` is modulo 4. -/
def invShiftRows (m : Columns) : Columns := ofBytes fun r c => matrixByte m r (c - r)

/-- R144: the first row of M. -/
def mixRow : Vector Byte 4 := #v[0x02#8, 0x03#8, 0x01#8, 0x01#8]

/-- R144: the first row of M'. -/
def invMixRow : Vector Byte 4 := #v[0x0E#8, 0x0B#8, 0x0D#8, 0x09#8]

/-- R144: the circulant matrix of a first row, `M[r][k] = m[(k - r) mod 4]`. -/
def circulant (row : Vector Byte 4) (r k : Fin 4) : Byte := row[k - r]

/-- R145: every column times the circulant matrix of `row`. -/
def mixWith (row : Vector Byte 4) (m : Columns) : Columns := ofBytes fun r c =>
  gmul (circulant row r 0) (matrixByte m 0 c) ^^^ gmul (circulant row r 1) (matrixByte m 1 c)
    ^^^ gmul (circulant row r 2) (matrixByte m 2 c) ^^^ gmul (circulant row r 3) (matrixByte m 3 c)

/-- R145: every column times M. -/
def mixColumns (m : Columns) : Columns := mixWith mixRow m

/-- R146: every column times M'. -/
def invMixColumns (m : Columns) : Columns := mixWith invMixRow m

/-- R147: byte by byte exclusive or with the round key. -/
def addRoundKey (k m : Columns) : Columns := ofBytes fun r c => matrixByte m r c ^^^ matrixByte k r c

/-- R140. -/
def execSubbytes (s : State) : Host.Outcome State Fault Refusal :=
  withTable (writeCipher (subBytes s.sbox s.cipher) s) s

/-- R141. -/
def execInvsubbytes (s : State) : Host.Outcome State Fault Refusal :=
  withTable (writeCipher (subBytes s.inv s.cipher) s) s

/-- R142. -/
def execShiftrows (s : State) : Host.Outcome State Fault Refusal :=
  completed (writeCipher (shiftRows s.cipher) s)

/-- R143. -/
def execInvshiftrows (s : State) : Host.Outcome State Fault Refusal :=
  completed (writeCipher (invShiftRows s.cipher) s)

/-- R145. -/
def execMixcolumns (s : State) : Host.Outcome State Fault Refusal :=
  completed (writeCipher (mixColumns s.cipher) s)

/-- R146. -/
def execInvmixcolumns (s : State) : Host.Outcome State Fault Refusal :=
  completed (writeCipher (invMixColumns s.cipher) s)

/-- R147. -/
def execAddroundkey (s : State) : Host.Outcome State Fault Refusal :=
  completed (writeCipher (addRoundKey s.rkey s.cipher) s)

end Sys2Proof.Machine
end

