-- ==== Sys2Proof/Machine/Rounds.lean ====
section
/-! DEFINITION. The two composite rounds (R160, R161), each one command that no access can observe halfway (R56). -/

namespace Sys2Proof.Machine

/-- R160: SubBytes, ShiftRows, MixColumns, AddRoundKey, in that order. -/
def encRound (sbox : Table) (k m : Columns) : Columns :=
  addRoundKey k (mixColumns (shiftRows (subBytes sbox m)))

/-- R161: AddRoundKey, InvMixColumns, InvShiftRows, InvSubBytes, in that order. -/
def decRound (inv : Table) (k m : Columns) : Columns :=
  subBytes inv (invShiftRows (invMixColumns (addRoundKey k m)))

/-- R160. -/
def execEncround (s : State) : Host.Outcome State Fault Refusal :=
  withTable (writeCipher (encRound s.sbox s.rkey s.cipher) s) s

/-- R161. -/
def execDecround (s : State) : Host.Outcome State Fault Refusal :=
  withTable (writeCipher (decRound s.inv s.rkey s.cipher) s) s

end Sys2Proof.Machine
end

