-- ==== Sys2Proof/Machine/Tables.lean ====
section
/-! DEFINITION. Loading, validating, inverting and reading the S-box table (R111 to R116). -/

namespace Sys2Proof.Machine

/-- `min(TBL_COUNT + 1, 0xFFFF)`: the count saturates and never wraps (R32, R111). -/
def countUp (n : BitVec 16) : BitVec 16 := BitVec.ofNat 16 (min (n.toNat + 1) 0xFFFF)

/-- R111: a host write of `v` to TBL_DATA. It is no command: LASTERR and ERRSEEN stay. -/
def tableAppend (v : Word) (s : State) : State :=
  { s with
    tv := false
    oor := if 255 < v.toNat then true else s.oor
    sbox := if v.toNat ≤ 255 ∧ s.tblCount.toNat < 256 then s.sbox.setIfInBounds s.tblCount.toNat (v.setWidth 8) else s.sbox
    tblCount := countUp s.tblCount }

/-- R112: TBL_COUNT, OOR and TV cleared; the table contents stay. -/
def tableClear (s : State) : State := { s with tblCount := 0#16, oor := false, tv := false }

/-- R113: `mark[v]`, the number of indices at which the value `v` stands. -/
def mark (t : Table) (v : Byte) : Nat := t.toList.count v

/-- R113: some value stands at two or more indices. -/
def hasDuplicate (t : Table) : Bool := allBytes.any fun v => 2 ≤ mark t v

/-- R113: some value stands at no index. -/
def hasMissing (t : Table) : Bool := allBytes.any fun v => mark t v == 0

/-- R114: `for x in 0..255: INV[SBOX[x]] <- x`, over the old contents of INV. -/
def buildInverse (sbox inv : Table) : Table :=
  allBytes.foldl (fun t x => tablePut t (tableGet sbox x) x) inv

/-- R114: `INV[SBOX[x]] = x` for every `x`. -/
def inverseHolds (sbox inv : Table) : Bool := allBytes.all fun x => tableGet inv (tableGet sbox x) == x

/-- R114: INV takes the new table and TV is set. -/
def tableCommit (inv : Table) (s : State) : State := { s with inv := inv, tv := true }

/-- R112. -/
def execTblclr (s : State) : Host.Outcome State Fault Refusal := completed (tableClear s)

/-- R113 then R114: the checks in the source's order, then the inverse table. MissingValue and InversionError are
faults, which no state reaches (R174; log 5). -/
def execTblcommit (s : State) : Host.Outcome State Fault Refusal :=
  if s.tblCount ≠ 256#16 then failed .wrongLength s
  else if s.oor then failed .outOfRange s
  else if hasDuplicate s.sbox then failed .duplicateValue s
  else if hasMissing s.sbox then .fault .missingValue
  else
    let inv := buildInverse s.sbox s.inv
    if inverseHolds s.sbox inv then completed (tableCommit inv s) else .fault .inversionError

/-- R115. -/
def execSboxrd (a : Byte) (s : State) : Host.Outcome State Fault Refusal :=
  withTable (writeResult (tableGet s.sbox a) s) s

/-- R116. -/
def execInvrd (a : Byte) (s : State) : Host.Outcome State Fault Refusal :=
  withTable (writeResult (tableGet s.inv a) s) s

end Sys2Proof.Machine
end

