-- ==== Sys2Proof/Machine/Dispatch.lean ====
section
/-! DEFINITION. The meaning of every command (R72, R100). -/

namespace Sys2Proof.Machine

def exec (i : Instr) (s : State) : Host.Outcome State Fault Refusal :=
  match i with
  | .nop => Sys2Proof.Machine.execNop s
  | .gfmul a b => Sys2Proof.Machine.execGfmul a b s
  | .gfinv a => Sys2Proof.Machine.execGfinv a s
  | .subbytes => Sys2Proof.Machine.execSubbytes s
  | .invsubbytes => Sys2Proof.Machine.execInvsubbytes s
  | .shiftrows => Sys2Proof.Machine.execShiftrows s
  | .invshiftrows => Sys2Proof.Machine.execInvshiftrows s
  | .mixcolumns => Sys2Proof.Machine.execMixcolumns s
  | .invmixcolumns => Sys2Proof.Machine.execInvmixcolumns s
  | .addroundkey => Sys2Proof.Machine.execAddroundkey s
  | .encround => Sys2Proof.Machine.execEncround s
  | .decround => Sys2Proof.Machine.execDecround s
  | .tblclr => Sys2Proof.Machine.execTblclr s
  | .tblcommit => Sys2Proof.Machine.execTblcommit s
  | .sboxrd a => Sys2Proof.Machine.execSboxrd a s
  | .invrd a => Sys2Proof.Machine.execInvrd a s

end Sys2Proof.Machine
end

