-- ==== Sys2Proof/Machine/Bus.lean ====
section
/-! DEFINITION. The host's port: a command word executed (R100), register reads and writes (R54, R55), the accesses the
bus refuses (R53), reset (R190), and one host input performed whole (R56). -/

namespace Sys2Proof.Machine

/-- R100: decode, then the command; a word that decodes to nothing fails with IllegalCommand (R104). -/
def execute (w : Word) (s : State) : Host.Outcome State Fault Refusal :=
  match decode w with
  | .ok i => exec i s
  | .error _ => failed .illegalCommand s

/-- The register at an offset (R20); none at a misaligned or reserved offset (R53). -/
def regAt (off : Offset) : Option Reg :=
  match off.toNat with
  | 0x00 => some .cmd
  | 0x04 => some .status
  | 0x08 => some .result
  | 0x0C => some .tblData
  | 0x10 => some .tblCount
  | 0x20 => some (.state 0)
  | 0x24 => some (.state 1)
  | 0x28 => some (.state 2)
  | 0x2C => some (.state 3)
  | 0x30 => some (.rkey 0)
  | 0x34 => some (.rkey 1)
  | 0x38 => some (.rkey 2)
  | 0x3C => some (.rkey 3)
  | _ => none

/-- The offset of a register (R20). -/
def offsetOf : Reg → Offset
  | .cmd => 0x00#6
  | .status => 0x04#6
  | .result => 0x08#6
  | .tblData => 0x0C#6
  | .tblCount => 0x10#6
  | .state c => BitVec.ofNat 6 (0x20 + 4 * c.val)
  | .rkey c => BitVec.ofNat 6 (0x30 + 4 * c.val)

/-- R53: the register an access selects; none when the bus refuses the access, for its offset or its width. -/
def accessReg (off : Offset) (width : Nat) : Option Reg := if width = 32 then regAt off else none

/-- R54: the word a register reads as. CMD and TBL_DATA read 0 (R21, R31). -/
def readReg (r : Reg) (s : State) : Word :=
  match r with
  | .cmd => 0#32
  | .status => statusWord s
  | .result => s.result.setWidth 32
  | .tblData => 0#32
  | .tblCount => s.tblCount.setWidth 32
  | .state c => s.cipher[c]
  | .rkey c => s.rkey[c]

/-- R55: the effect of writing a register. RESULT and TBL_COUNT ignore writes. -/
def writeReg (r : Reg) (v : Word) (s : State) : Host.Outcome State Fault Refusal :=
  match r with
  | .cmd => execute v s
  | .status => .next (writeStatus v s)
  | .result => .next s
  | .tblData => .next (tableAppend v s)
  | .tblCount => .next s
  | .state c => .next (writeStateReg c v s)
  | .rkey c => .next (writeKeyReg c v s)

/-- `BusRead` (R53, R54): the word read, or BusError. -/
def busRead (off : Offset) (width : Nat) (s : State) : Except Fault Word :=
  match accessReg off width with
  | some r => .ok (readReg r s)
  | none => .error .busError

/-- `BusWrite` (R53, R55): the register's write, or BusError with no effect. -/
def busWrite (off : Offset) (width : Nat) (v : Word) (s : State) : Host.Outcome State Fault Refusal :=
  match accessReg off width with
  | some r => writeReg r v s
  | none => .fault .busError

/-- R190: the reset input. The block's state is that of `State.reset`; what the host has read and what it will still do
are the host's, and stay (log 6). -/
def applyReset (s : State) : State := { State.reset with pending := s.pending, returned := s.returned }

/-- One input of the outside world, performed whole (R56). -/
def perform (i : Input) (s : State) : Host.Outcome State Fault Refusal :=
  match i with
  | .read off width =>
    match busRead off width s with
    | .ok w => .next (pushReturned w s)
    | .error f => .fault f
  | .write off width v => busWrite off width v s
  | .reset => .next (applyReset s)

/-- The inputs of a list, one after another (R59). -/
def performAll : List Input → State → Host.Outcome State Fault Refusal
  | [], s => .next s
  | i :: rest, s =>
    match perform i s with
    | .next t => performAll rest t
    | .fault f => .fault f
    | .refused r => .refused r

/-- The state with the oldest pending input taken off (log 1). -/
def takeInput (rest : List Input) (s : State) : State := { s with pending := rest }

/-- One step: the oldest pending input, performed (R8, R59). With none pending nothing changes: every change of state is
the effect of one host access (R8; log 3). -/
def runInput (s : State) : Host.Outcome State Fault Refusal :=
  match s.pending with
  | [] => .next s
  | i :: rest => perform i (takeInput rest s)

/-- The host's write of a command word to CMD (R21, R75 `CMD`). -/
def commandInput (w : Word) : Input := .write (offsetOf .cmd) 32 w

/-- The state with one more input before all the pending ones (log 1). -/
def prependInput (i : Input) (s : State) : State := { s with pending := i :: s.pending }

end Sys2Proof.Machine
end

