-- ==== Sys2Proof/Machine/Step.lean ====
section
/-! DEFINITION. The step, and how the host's checks place a command before it. -/

namespace Sys2Proof.Machine

/-- One step of the machine: the oldest input of the host, performed whole (R8, R56, R59). -/
def step (s : State) : Host.Outcome State Fault Refusal := runInput s

/-- The state whose next step executes the command word with low bits `w`: the block fetches nothing, a command exists
only as the data of a CMD write (R62), so that write becomes the host's next input (log 1). -/
def State.withFetchWord (s : State) (nbits w : Nat) : State := prependInput (commandInput (tableWord nbits w)) s

end Sys2Proof.Machine
end

