-- ==== Sys2Proof/Config.lean ====
section
/-! DEFINITION. What the spec leaves OPEN (R7): the three named parameters, which the model takes as an argument
and never fixes. The block itself depends on none of them; the platform's address decoding takes `base`, the
host's procedures take `rounds` and `keyStretch`. -/

namespace Sys2Proof

/-- The open parameters of R7. `keyStretch` gives the `ROUNDS × 16` bytes of R162; their number is part of its
type, so that no key of another length can be given. This is an argument of definitions, never a field of the
machine's state. -/
structure Params where
  /-- `BASE`: the platform address of the 64-byte register window (D3). -/
  base : Nat
  /-- `ROUNDS`: how many rounds the host runs per block (D19). -/
  rounds : Nat
  /-- `KEY_STRETCH(key, ROUNDS)`: the round keys, as `ROUNDS × 16` bytes (R162, D19). -/
  keyStretch : List Byte → (n : Nat) → Vector Byte (n * 16)

end Sys2Proof
end

