-- ==== Sys2Proof/Machine/Platform.lean ====
section
/-! DEFINITION. The window in the platform's address map (R50, R51): an access at a platform address, for any `BASE`, and
the window as a byte-addressed host sees it (R52). -/

namespace Sys2Proof.Machine

/-- A bus access of the host at a platform address. -/
inductive PlatformAccess where
  | read (addr width : Nat)
  | write (addr width : Nat) (v : Word)
  deriving DecidableEq, Repr

/-- The offset of a platform address within `BASE .. BASE+0x3F`; none outside (R50, R51). -/
def windowOffset (base addr : Nat) : Option Offset :=
  if base ≤ addr ∧ addr ≤ base + 0x3F then some (BitVec.ofNat 6 (addr - base)) else none

/-- An access at a platform address: the block's access at its offset. Outside the window there is no step (R51; log 7). -/
def platformAccess (p : Params) (a : PlatformAccess) (s : State) : Host.Outcome State Fault Refusal :=
  match a with
  | .read addr width =>
    match windowOffset p.base addr with
    | some off => perform (.read off width) s
    | none => .refused .outsideWindow
  | .write addr width v =>
    match windowOffset p.base addr with
    | some off => perform (.write off width v) s
    | none => .refused .outsideWindow

/-- R52: lane `j` of the word at `off` is the byte at offset `off + j`; none at a reserved offset. -/
def windowByte (s : State) (off : Offset) : Option Byte :=
  (regAt (off &&& 0b111100#6)).map fun r => lane (readReg r s) ⟨off.toNat % 4, by omega⟩

/-- R52: the byte a byte-addressed host sees at a platform address. -/
def platformByte (p : Params) (addr : Nat) (s : State) : Option Byte :=
  (windowOffset p.base addr).bind (windowByte s)

end Sys2Proof.Machine
end

