-- ==== Sys2Proof/Machine/Procedures.lean ====
section
/-! DEFINITION. The host's side: the notation of R75 and R76 as bus inputs, and the host procedures of 44_rounds.md
(R162 to R167). They are outside the block (R5); they are modelled so that the system can be spoken of (log 13). -/

namespace Sys2Proof.Machine

/-- How a host procedure can end without a result. -/
inductive HostError where
  /-- R166, R171: the padding of a decrypted message is wrong, or its length is no positive multiple of 16 (D20). -/
  | paddingError
  /-- R162: an empty key has no specified behaviour; a host model refuses it (93_implementation_defined.md). -/
  | emptyKey
  /-- An access of the procedure faulted. -/
  | blockFault (f : Fault)
  /-- An access of the procedure was refused a meaning. -/
  | blockRefusal (r : Refusal)
  deriving DecidableEq, Repr

/-- R75, `WR <reg>, <value>`. -/
def wr (r : Reg) (v : Word) : Input := .write (offsetOf r) 32 v

/-- R75, `RD <reg>`. -/
def rd (r : Reg) : Input := .read (offsetOf r) 32

/-- R75, `CMD <mnemonic> [a [, b]]`. -/
def cmd (i : Instr) : Input := commandInput (encode i)

/-- R76, `LOADSTATE b0 .. b15`. -/
def loadState (b : Block) : List Input :=
  let m := ofBlock b
  [wr (.state 0) m[0], wr (.state 1) m[1], wr (.state 2) m[2], wr (.state 3) m[3]]

/-- R76, `LOADKEY k0 .. k15`. -/
def loadKey (k : Block) : List Input :=
  let m := ofBlock k
  [wr (.rkey 0) m[0], wr (.rkey 1) m[1], wr (.rkey 2) m[2], wr (.rkey 3) m[3]]

/-- R76, `LOADTABLE t`: TBLCLR, one TBL_DATA write for each value, TBLCOMMIT. R110 allows any number of values. -/
def loadTable (t : List Word) : List Input := cmd .tblclr :: t.map (wr .tblData) ++ [cmd .tblcommit]

/-- The outcome of some of the block's steps, as the host's procedures go on with it. -/
def hostResult : Host.Outcome State Fault Refusal → Except HostError State
  | .next s => .ok s
  | .fault f => .error (.blockFault f)
  | .refused r => .error (.blockRefusal r)

/-- One read of a procedure: the word goes back to the host. -/
def hostRead (r : Reg) (s : State) : Except HostError (State × Word) :=
  match busRead (offsetOf r) 32 s with
  | .ok w => .ok (pushReturned w s, w)
  | .error f => .error (.blockFault f)

/-- R76, `READSTATE`: four reads, and the block their words hold. -/
def hostReadState (s : State) : Except HostError (State × Block) := do
  let (s, w0) ← hostRead (.state 0) s
  let (s, w1) ← hostRead (.state 1) s
  let (s, w2) ← hostRead (.state 2) s
  let (s, w3) ← hostRead (.state 3) s
  return (s, toBlock #v[w0, w1, w2, w3])

/-- R162: the round keys `K_1 .. K_ROUNDS`, consecutive 16-byte pieces of `KEY_STRETCH(key, ROUNDS)`. -/
def roundKeys (p : Params) (key : List Byte) : List Block :=
  (List.finRange p.rounds).map fun i =>
    Vector.ofFn fun j : Fin 16 =>
      (p.keyStretch key p.rounds)[16 * i.val + j.val]'(by have := i.isLt; have := j.isLt; omega)

/-- R163: encrypt one block with the given round keys, in order. -/
def hostEncryptBlock (keys : List Block) (b : Block) (s : State) : Except HostError (State × Block) := do
  let s ← hostResult (performAll (loadState b ++ keys.flatMap fun k => loadKey k ++ [cmd .encround]) s)
  hostReadState s

/-- R164: decrypt one block with the given round keys, in reverse order. -/
def hostDecryptBlock (keys : List Block) (b : Block) (s : State) : Except HostError (State × Block) := do
  let s ← hostResult (performAll (loadState b ++ keys.reverse.flatMap fun k => loadKey k ++ [cmd .decround]) s)
  hostReadState s

/-- R165: the number of padding bytes, `16 − (L mod 16)`. -/
def padLength (length : Nat) : Nat := 16 - length % 16

/-- R165: PKCS7 padding. -/
def pad (message : List Byte) : List Byte :=
  message ++ List.replicate (padLength message.length) (BitVec.ofNat 8 (padLength message.length))

/-- R166: PKCS7 removal; the pad length is the last byte, it lies in 1 .. 16, and the last bytes all equal it. -/
def unpad (padded : List Byte) : Except HostError (List Byte) :=
  match padded.getLast? with
  | none => .error .paddingError
  | some last =>
    let n := last.toNat
    if 1 ≤ n ∧ n ≤ 16 ∧ n ≤ padded.length ∧ (padded.drop (padded.length - n)).all (· == last) then
      .ok (padded.take (padded.length - n))
    else .error .paddingError

/-- The first `n` 16-byte blocks of a byte string; a rest of fewer than 16 bytes is no block (R165). -/
def splitBlocks : Nat → List Byte → List Block
  | 0, _ => []
  | n + 1, bytes =>
    if h : 16 ≤ bytes.length then
      (Vector.ofFn fun j : Fin 16 => bytes[j.val]'(by have := j.isLt; omega)) :: splitBlocks n (bytes.drop 16)
    else []

/-- The blocks of a byte string (R165, R166). -/
def blocksOf (bytes : List Byte) : List Block := splitBlocks (bytes.length / 16) bytes

/-- The bytes of blocks, concatenated (R165, R166). -/
def bytesOf (blocks : List Block) : List Byte := blocks.flatMap Vector.toList

/-- Each block through `f`, in order, with no chaining (R165, R166). -/
def hostEachBlock (f : Block → State → Except HostError (State × Block)) :
    List Block → State → Except HostError (State × List Block)
  | [], s => .ok (s, [])
  | b :: rest, s => do
    let (s, c) ← f b s
    let (s, cs) ← hostEachBlock f rest s
    return (s, c :: cs)

/-- R165 with R162 and R163: pad, cut, encrypt each block, concatenate. An empty key is refused (R162). -/
def hostEncrypt (p : Params) (key message : List Byte) (s : State) : Except HostError (State × List Byte) := do
  if key = [] then throw .emptyKey
  let (s, blocks) ← hostEachBlock (hostEncryptBlock (roundKeys p key)) (blocksOf (pad message)) s
  return (s, bytesOf blocks)

/-- R166 with R162 and R164: decrypt each block, concatenate, remove the padding. A ciphertext whose length is not a
positive multiple of 16 raises PaddingError (D20), an empty key is refused (R162). -/
def hostDecrypt (p : Params) (key ciphertext : List Byte) (s : State) : Except HostError (State × List Byte) := do
  if key = [] then throw .emptyKey
  if ciphertext = [] ∨ ciphertext.length % 16 ≠ 0 then throw .paddingError
  let (s, blocks) ← hostEachBlock (hostDecryptBlock (roundKeys p key)) (blocksOf ciphertext) s
  let message ← unpad (bytesOf blocks)
  return (s, message)

end Sys2Proof.Machine
end

