-- ==== Sys2Proof/Safety.lean ====
section
/-! DEFINITION. What the claims speak of: the invariants of the machine (R26, R28, R117), when two states cannot be told
apart by the host (R191), and what it is for a command to leave a state as it was but for named fields. -/

namespace Sys2Proof.Machine

/-- R117: `INV[SBOX[x]] = x` for all `x`, and `SBOX[INV[y]] = y` for all `y`. -/
def tablesInverse (sbox inv : Table) : Prop :=
  (∀ x : Byte, tableGet inv (tableGet sbox x) = x) ∧ ∀ y : Byte, tableGet sbox (tableGet inv y) = y

/-- R26, R117: while TV = 1 the two tables are inverse to each other. -/
def State.tableInv (s : State) : Prop := s.tv = true → tablesInverse s.sbox s.inv

/-- R114: TBLCOMMIT leaves TBL_COUNT at 256 and OOR at 0, and whatever changes them clears TV (R111, R112). -/
def State.loadInv (s : State) : Prop := s.tv = true → s.tblCount = 256#16 ∧ s.oor = false

/-- R28, R170, R174: LASTERR is a code that is produced: 0 to 8, and neither 4 nor 5. -/
def State.statusInv (s : State) : Prop := s.lastErr.toNat ≤ 8 ∧ s.lastErr ≠ 4#4 ∧ s.lastErr ≠ 5#4

/-- The invariant of every step. -/
def State.Inv (s : State) : Prop := s.tableInv ∧ s.loadInv ∧ s.statusInv

/-- R191: the host cannot tell `s` from `t`. They differ in the tables alone, not at all while a table is valid, and as
long as the load in progress has met no value above 255 they hold the same values at the indices it has written. -/
def State.Agree (s t : State) : Prop :=
  t = { s with sbox := t.sbox, inv := t.inv } ∧
  (s.tv = true → t = s) ∧
  (s.oor = false → ∀ x : Byte, x.toNat < s.tblCount.toNat → tableGet s.sbox x = tableGet t.sbox x)

/-- `t` is `s` but for STATE0..3, and LASTERR is 0: what a transform that completes may change (R101, R140 to R147). -/
def State.OnlyCipher (s t : State) : Prop := t = { s with cipher := t.cipher, lastErr := 0#4 }

/-- `t` is `s` after `raise Err(code)` (R102). -/
def State.ReportsOnly (s t : State) (code : BitVec 4) : Prop := t = { s with lastErr := code, errSeen := true }

end Sys2Proof.Machine
end

