-- ==== Sys2Proof/Certificates/Slice0/Obligations.lean ====
section
/-! DEFINITION. The statements for the provers. Each docstring names the rule of spec/ it formalises; "derived" says that it
follows from several rules or states one only in part. Where a statement rests on a choice of the model's own, the docstring
names the log entry. -/

open Sys2Proof Sys2Proof.Machine

/-! ### Encoding (30_encoding.md) -/

/-- Derived from R70, R72, R73, R75: every command's word decodes to the command, with every operand at every value. -/
def Obligations.DecodeInvertsEncode : Prop := ∀ i : Instr, decode (encode i) = .ok i

/-- Derived from R70, R72, R73, R75: a word that decodes is the word of the command it decodes to. -/
def Obligations.EncodeInvertsDecode : Prop := ∀ (w : Word) (i : Instr), decode w = .ok i → encode i = w

/-- R74, R104: the words that decode are the legal ones, and any other word written to CMD does nothing but report error 8. -/
def Obligations.IllegalWordsOnlyReportErrorEight : Prop :=
  ∀ w : Word,
    ((∃ i, decode w = .ok i) ↔ legalWord w = true) ∧
    (legalWord w = false →
      ∀ s : State, perform (.write 0x00#6 32 w) s = .next { s with lastErr := 8#4, errSeen := true })

/-- Derived from R72 (the sentence after its table): at most one row of the opcode map matches any word. -/
def Obligations.OpcodeRowsSelectAtMostOne : Prop :=
  rows.length = 16 ∧ ∀ w : Word, (rows.filter fun r => r.selects w).length ≤ 1

/-- Derived from R77: the worked encodings, read both ways, and the two worked illegal words. R77 says only that these two
are illegal; the names under which the decoder rejects them are the model's choice (log 14, DESIGN CHOICE). -/
def Obligations.WorkedEncodings : Prop :=
  (encode (.gfmul 0x57#8 0x83#8) = 0x00835701#32 ∧ decode 0x00835701#32 = .ok (.gfmul 0x57#8 0x83#8)) ∧
  (encode (.gfinv 0x53#8) = 0x00005302#32 ∧ decode 0x00005302#32 = .ok (.gfinv 0x53#8)) ∧
  (encode (.sboxrd 0xFF#8) = 0x0000FF22#32 ∧ decode 0x0000FF22#32 = .ok (.sboxrd 0xFF#8)) ∧
  (encode .encround = 0x00000018#32 ∧ decode 0x00000018#32 = .ok .encround) ∧
  (encode .tblcommit = 0x00000021#32 ∧ decode 0x00000021#32 = .ok .tblcommit) ∧
  decode 0x01000000#32 = .error .nonzeroReserved ∧
  decode 0x00000110#32 = .error .nonzeroOperand

/-! ### The host's port (20_memory.md, 40_command.md) -/

/-- Derived from R21, R56, R62, R73, R100: when the host's oldest input writes a word to CMD that decodes to a command, the
step is that command on the state without that input (log 1). A word placed by `withFetchWord` is written next. -/
def Obligations.StepRunsDecodedCommand : Prop :=
  (∀ (s : State) (rest : List Input) (w : Word) (i : Instr),
    s.pending = .write 0x00#6 32 w :: rest → decode w = .ok i → step s = exec i { s with pending := rest }) ∧
  ∀ (s : State) (w : Word), step (s.withFetchWord 32 w.toNat) = perform (.write 0x00#6 32 w) s

/-- Derived from R8, R59, and the model's own choices (log 1, log 3): a step performs the oldest pending input; with none,
nothing changes. -/
def Obligations.StepPerformsOldestInput : Prop :=
  (∀ (s : State) (i : Input) (rest : List Input),
    s.pending = i :: rest → step s = perform i { s with pending := rest }) ∧
  ∀ s : State, s.pending = [] → step s = .next s

/-- Derived from R56, R59 and log 1: a run takes the host's inputs in their order, each whole; performing inputs in turn and
running as many steps come to the same state. -/
def Obligations.RunPerformsInputsInOrder : Prop :=
  ∀ (inputs rest : List Input) (s t : State), s.pending = inputs ++ rest →
    performAll inputs { s with pending := rest } = .next t →
    Host.Core.run Sys2Proof.core inputs.length s = .next t

/-- R53: an access is refused with BusError exactly when it is misaligned, not 32 bits wide, or at 0x14, 0x18, 0x1C. -/
def Obligations.BusErrorExactlyOnRefusedAccess : Prop :=
  ∀ (off : Offset) (width : Nat) (s : State),
    let refused := off.toNat % 4 ≠ 0 ∨ width ≠ 32 ∨ off.toNat = 0x14 ∨ off.toNat = 0x18 ∨ off.toNat = 0x1C
    (perform (.read off width) s = .fault .busError ↔ refused) ∧
    ∀ v : Word, perform (.write off width v) s = .fault .busError ↔ refused

/-- Derived from R54: the word each register reads as. The bus answers it, and a performed read changes nothing of the block.
That the word then goes to `returned`, the record of what the host has read, is the model's choice (log 2, DESIGN CHOICE). -/
def Obligations.ReadReturnsRegisterWord : Prop :=
  ∀ s : State,
    let reads (off : Offset) (w : Word) : Prop :=
      busRead off 32 s = .ok w ∧ perform (.read off 32) s = .next { s with returned := w :: s.returned }
    reads 0x00#6 0#32 ∧
    (∃ w : Word, reads 0x04#6 w ∧
      w.toNat = 256 * s.errSeen.toNat + 16 * s.lastErr.toNat + 2 * s.oor.toNat + s.tv.toNat) ∧
    (∃ w : Word, reads 0x08#6 w ∧ w.toNat = s.result.toNat) ∧
    reads 0x0C#6 0#32 ∧
    (∃ w : Word, reads 0x10#6 w ∧ w.toNat = s.tblCount.toNat) ∧
    (∀ c : Fin 4, reads (BitVec.ofNat 6 (0x20 + 4 * c.val)) s.cipher[c]) ∧
    ∀ c : Fin 4, reads (BitVec.ofNat 6 (0x30 + 4 * c.val)) s.rkey[c]

/-- R55: what a write of each register does; RESULT and TBL_COUNT ignore it, STATUS heeds bit 8 only. -/
def Obligations.RegisterWritesTakeEffect : Prop :=
  ∀ (s : State) (v : Word),
    perform (.write 0x00#6 32 v) s = execute v s ∧
    perform (.write 0x04#6 32 v) s = .next { s with errSeen := s.errSeen && !v.getLsbD 8 } ∧
    perform (.write 0x08#6 32 v) s = .next s ∧
    perform (.write 0x0C#6 32 v) s = .next (tableAppend v s) ∧
    perform (.write 0x10#6 32 v) s = .next s ∧
    (∀ c : Fin 4, ∃ t, perform (.write (BitVec.ofNat 6 (0x20 + 4 * c.val)) 32 v) s = .next t ∧
      t = { s with cipher := t.cipher } ∧ ∀ d : Fin 4, t.cipher[d] = if d = c then v else s.cipher[d]) ∧
    ∀ c : Fin 4, ∃ t, perform (.write (BitVec.ofNat 6 (0x30 + 4 * c.val)) 32 v) s = .next t ∧
      t = { s with rkey := t.rkey } ∧ ∀ d : Fin 4, t.rkey[d] = if d = c then v else s.rkey[d]

/-- R52: lane `j` of the word at an offset is the byte at `BASE + off + j`; block byte `i` of the state is at
`BASE + 0x20 + i`, of the round key at `BASE + 0x30 + i`. -/
def Obligations.WindowBytesAreLittleEndian : Prop :=
  ∀ (p : Params) (s : State),
    (∀ (r : Reg) (j : Fin 4), platformByte p (p.base + (offsetOf r).toNat + j.val) s =
      some ((readReg r s).extractLsb' (8 * j.val) 8)) ∧
    ∀ i : Fin 16,
      platformByte p (p.base + 0x20 + i.val) s = some (toBlock s.cipher)[i] ∧
      platformByte p (p.base + 0x30 + i.val) s = some (toBlock s.rkey)[i] ∧
      (toBlock s.cipher)[i] = s.cipherByte ⟨i.val % 4, by omega⟩ ⟨i.val / 4, by omega⟩

/-- Derived from R50, R51: outside `BASE .. BASE+0x3F` there is no step, which the model says by the refusal `outsideWindow`
(log 7); inside, the access is the block's at its offset. -/
def Obligations.WindowDecodesItsAddressesOnly : Prop :=
  ∀ (p : Params) (s : State) (width : Nat) (v : Word),
    (∀ addr : Nat, (platformAccess p (.read addr width) s = .refused .outsideWindow ↔
      addr < p.base ∨ p.base + 0x3F < addr)) ∧
    (∀ addr : Nat, (platformAccess p (.write addr width v) s = .refused .outsideWindow ↔
      addr < p.base ∨ p.base + 0x3F < addr)) ∧
    ∀ off : Offset,
      platformAccess p (.read (p.base + off.toNat) width) s = perform (.read off width) s ∧
      platformAccess p (.write (p.base + off.toNat) width v) s = perform (.write off width v) s

/-- Derived from R57: a read changes nothing of the block, and repeating a write of STATUS, STATE or RKEY changes nothing. -/
def Obligations.RegisterAccessesAreIdempotent : Prop :=
  (∀ (off : Offset) (width : Nat) (s t : State),
    perform (.read off width) s = .next t → t = { s with returned := t.returned }) ∧
  ∀ (off : Offset) (v : Word) (s t : State), off = 0x04#6 ∨ 0x20 ≤ off.toNat →
    perform (.write off 32 v) s = .next t → perform (.write off 32 v) t = .next t

/-- Derived from R57: the commands whose repetition leaves the same state, failing or not. -/
def Obligations.RepeatableCommandsAreIdempotent : Prop :=
  ∀ (i : Instr) (s t : State),
    (i = .nop ∨ i = .tblclr ∨ i = .tblcommit ∨ (∃ a b, i = .gfmul a b) ∨ (∃ a, i = .gfinv a) ∨
      (∃ a, i = .sboxrd a) ∨ ∃ a, i = .invrd a) →
    exec i s = .next t → exec i t = .next t

/-! ### Errors and status (40_command.md, 60_exceptions.md) -/

/-- R178: every command, in every state, either completes with LASTERR 0 and ERRSEEN as it was, or changes nothing but
LASTERR, to a nonzero code, and ERRSEEN, to 1. None redirects control and none stops the machine. -/
def Obligations.FailingCommandsChangeStatusOnly : Prop :=
  ∀ (i : Instr) (s : State), ∃ t, exec i s = .next t ∧
    ((t.lastErr = 0#4 ∧ t.errSeen = s.errSeen) ∨
      (t.lastErr ≠ 0#4 ∧ t = { s with lastErr := t.lastErr, errSeen := true }))

/-- R101: a command never reads LASTERR or ERRSEEN; one that completes writes LASTERR 0 and leaves ERRSEEN. -/
def Obligations.EarlierErrorsDoNotMatter : Prop :=
  ∀ (i : Instr) (s : State) (code : BitVec 4) (seen : Bool), ∃ t, exec i s = .next t ∧
    exec i { s with lastErr := code } = .next t ∧
    (t.lastErr = 0#4 → t.errSeen = s.errSeen ∧
      exec i { s with errSeen := seen } = .next { t with errSeen := seen }) ∧
    (t.lastErr ≠ 0#4 → exec i { s with errSeen := seen } = .next t)

/-- R179: ERRSEEN falls only by a host write of STATUS with bit 8 set or by reset; a failing command sets it, a successful
one leaves it alone, and every command overwrites LASTERR. -/
def Obligations.ErrseenStaysUntilCleared : Prop :=
  (∀ (i : Input) (s t : State), perform i s = .next t → s.errSeen = true → t.errSeen = false →
    (∃ v : Word, v.getLsbD 8 = true ∧ i = .write 0x04#6 32 v) ∨ i = .reset) ∧
  ∀ (i : Instr) (s t : State), exec i s = .next t →
    (t.lastErr ≠ 0#4 → t.errSeen = true) ∧ (t.lastErr = 0#4 → t.errSeen = s.errSeen) ∧
    ∀ code : BitVec 4, exec i { s with lastErr := code } = .next t

/-- Derived from R28: LASTERR changes by a write to CMD or by reset only. -/
def Obligations.LasterrChangesOnlyByCommands : Prop :=
  ∀ (i : Input) (s t : State), perform i s = .next t → t.lastErr ≠ s.lastErr →
    (∃ w : Word, i = .write 0x00#6 32 w) ∨ i = .reset

/-- Derived from R29: TV rises only by a TBLCOMMIT, falls only by TBLCLR, a TBL_DATA write or reset, and is 0 after each of
these. -/
def Obligations.ValidBitChangesOnlyAsStated : Prop :=
  (∀ (i : Input) (s t : State), perform i s = .next t → s.tv = false → t.tv = true → i = cmd .tblcommit) ∧
  (∀ (i : Input) (s t : State), perform i s = .next t → s.tv = true → t.tv = false →
    i = cmd .tblclr ∨ (∃ v : Word, i = .write 0x0C#6 32 v) ∨ i = .reset) ∧
  ∀ (i : Input) (s : State), (i = cmd .tblclr ∨ (∃ v : Word, i = .write 0x0C#6 32 v) ∨ i = .reset) →
    ∃ t, perform i s = .next t ∧ t.tv = false

/-- R30: OOR rises exactly by a TBL_DATA write above 255, falls exactly by TBLCLR or reset, and TBLCOMMIT reads it. -/
def Obligations.OutOfRangeLatch : Prop :=
  (∀ (v : Word) (s : State), 255 < v.toNat →
    ∃ t, perform (.write 0x0C#6 32 v) s = .next t ∧ t.oor = true) ∧
  (∀ (i : Input) (s : State), i = cmd .tblclr ∨ i = .reset → ∃ t, perform i s = .next t ∧ t.oor = false) ∧
  (∀ (i : Input) (s t : State), perform i s = .next t → s.oor = false → t.oor = true →
    ∃ v : Word, 255 < v.toNat ∧ i = .write 0x0C#6 32 v) ∧
  (∀ (i : Input) (s t : State), perform i s = .next t → s.oor = true → t.oor = false →
    i = cmd .tblclr ∨ i = .reset) ∧
  ∀ s : State, s.tblCount = 256#16 → s.oor = true →
    exec .tblcommit s = .next { s with lastErr := 2#4, errSeen := true }

/-- Derived from R22, R24, R25, R26, R29, R30, R32: what each command leaves unchanged. RKEY, SBOX and the host's own fields
stay under every command; RESULT, INV, OOR, TBL_COUNT, TV and STATE change under the commands named here only. -/
def Obligations.CommandsChangeOnlyTheirTargets : Prop :=
  ∀ (i : Instr) (s t : State), exec i s = .next t →
    t.rkey = s.rkey ∧ t.sbox = s.sbox ∧ t.pending = s.pending ∧ t.returned = s.returned ∧
    ((∀ a b, i ≠ .gfmul a b) → (∀ a, i ≠ .gfinv a ∧ i ≠ .sboxrd a ∧ i ≠ .invrd a) → t.result = s.result) ∧
    (i ≠ .tblcommit → t.inv = s.inv) ∧
    (i ≠ .tblclr → t.oor = s.oor ∧ t.tblCount = s.tblCount) ∧
    (i ≠ .tblclr → i ≠ .tblcommit → t.tv = s.tv) ∧
    (i ≠ .subbytes → i ≠ .invsubbytes → i ≠ .shiftrows → i ≠ .invshiftrows → i ≠ .mixcolumns → i ≠ .invmixcolumns →
      i ≠ .addroundkey → i ≠ .encround → i ≠ .decround → t.cipher = s.cipher)

/-- Derived from R115, R116, R140, R141, R160, R161 and R170: with no valid table each command that reads one fails with
NoTable and does nothing else. -/
def Obligations.TableCommandsNeedValidTable : Prop :=
  ∀ (s : State) (a : Byte) (i : Instr), s.tv = false →
    (i = .subbytes ∨ i = .invsubbytes ∨ i = .encround ∨ i = .decround ∨ i = .sboxrd a ∨ i = .invrd a) →
    exec i s = .next { s with lastErr := 7#4, errSeen := true }

/-! ### The commands -/

/-- R103: NOP clears LASTERR and does nothing else; it is the word of zeros. -/
def Obligations.NopOnlyClearsLasterr : Prop :=
  ∀ s : State, exec .nop s = .next { s with lastErr := 0#4 } ∧ execute 0x00000000#32 s = .next { s with lastErr := 0#4 } ∧
    performAll [cmd (.gfinv 0x00#8), cmd .nop] s = .next { s with lastErr := 0#4, errSeen := true }

/-- R132: GFMUL writes the field product to RESULT, whose upper 24 bits read 0, and clears LASTERR; it changes nothing else.
The corner cases: a zero operand gives 0, `a = 1` gives `b`. -/
def Obligations.GfmulWritesProduct : Prop :=
  ∀ (a b : Byte) (s : State), ∃ t, exec (.gfmul a b) s = .next t ∧
    t = { s with result := gmul a b, lastErr := 0#4 } ∧
    (readReg .result t).toNat = (gmul a b).toNat ∧
    (a = 0x00#8 ∨ b = 0x00#8 → t.result = 0x00#8) ∧ (a = 0x01#8 → t.result = b)

/-- Derived from R130, R131 (its first sentence): `gmul` is the product of polynomials over GF(2), reduced modulo
x^8 + x^4 + x^3 + x + 1; a byte stands for the polynomial of its bits. -/
def Obligations.GmulIsPolynomialProduct : Prop :=
  let poly (v : Byte) : Polynomial (ZMod 2) :=
    ∑ i ∈ Finset.range 8, if v.getLsbD i then Polynomial.X ^ i else 0
  ∀ a b : Byte, poly (gmul a b) = (poly a * poly b) %ₘ
    (Polynomial.X ^ 8 + Polynomial.X ^ 4 + Polynomial.X ^ 3 + Polynomial.X + 1)

/-- Derived from R131 (its laws): the laws of multiplication in GF(2^8). -/
def Obligations.GmulFieldLaws : Prop :=
  (∀ a : Byte, gmul a 0x00#8 = 0x00#8 ∧ gmul 0x00#8 a = 0x00#8 ∧ gmul 0x01#8 a = a) ∧
  (∀ a b : Byte, gmul a b = gmul b a) ∧
  (∀ a b c : Byte, gmul a (gmul b c) = gmul (gmul a b) c) ∧
  (∀ a b c : Byte, gmul a (b ^^^ c) = gmul a b ^^^ gmul a c) ∧
  ∀ a b : Byte, gmul a b = 0x00#8 → a = 0x00#8 ∨ b = 0x00#8

/-- R134: GFINV of 0 fails with InvZero; of any other byte it writes to RESULT the one byte whose product with it is 1. The
corner cases: 1 alone is its own inverse, and inverting the result gives the operand back. -/
def Obligations.GfinvWritesInverse : Prop :=
  ∀ (a : Byte) (s : State),
    (a = 0x00#8 → exec (.gfinv a) s = .next { s with lastErr := 6#4, errSeen := true }) ∧
    (a ≠ 0x00#8 → ∃ r : Byte, exec (.gfinv a) s = .next { s with result := r, lastErr := 0#4 } ∧
      gmul a r = 0x01#8 ∧ (∀ x : Byte, gmul a x = 0x01#8 → x = r) ∧ (r = a ↔ a = 0x01#8) ∧
      exec (.gfinv r) s = .next { s with result := a, lastErr := 0#4 })

/-- R133: for a nonzero byte `ginv` is the unique inverse, is `a^254`, and is its own inverse. -/
def Obligations.GinvIsUniqueInverse : Prop :=
  ∀ a : Byte, a ≠ 0x00#8 →
    gmul a (ginv a) = 0x01#8 ∧ (∀ x : Byte, gmul a x = 0x01#8 → x = ginv a) ∧
    ginv a = (List.replicate 254 a).foldl gmul 0x01#8 ∧ ginv (ginv a) = a

/-- R140: with a valid table SUBBYTES puts every state byte through SBOX, clears LASTERR and changes nothing else; without
one it fails with NoTable. -/
def Obligations.SubbytesSubstitutesEveryByte : Prop :=
  ∀ s : State,
    (s.tv = true → ∃ t, exec .subbytes s = .next t ∧ s.OnlyCipher t ∧
      (∀ r c : Fin 4, t.cipherByte r c = tableGet s.sbox (s.cipherByte r c)) ∧
      ((∀ x, tableGet s.sbox x = x) → t.cipher = s.cipher)) ∧
    (s.tv = false → exec .subbytes s = .next { s with lastErr := 7#4, errSeen := true })

/-- R141: with a valid table INVSUBBYTES puts every state byte through INV; without one it fails with NoTable. While the
tables are inverse to each other it undoes SUBBYTES and SUBBYTES undoes it. -/
def Obligations.InvsubbytesUndoesSubbytes : Prop :=
  ∀ s : State,
    (s.tv = true → ∃ t, exec .invsubbytes s = .next t ∧ s.OnlyCipher t ∧
      ∀ r c : Fin 4, t.cipherByte r c = tableGet s.inv (s.cipherByte r c)) ∧
    (s.tv = false → exec .invsubbytes s = .next { s with lastErr := 7#4, errSeen := true }) ∧
    (s.tv = true → tablesInverse s.sbox s.inv →
      performAll [cmd .subbytes, cmd .invsubbytes] s = .next { s with lastErr := 0#4 } ∧
      performAll [cmd .invsubbytes, cmd .subbytes] s = .next { s with lastErr := 0#4 })

/-- R142: SHIFTROWS rotates row `r` left by `r`: row 0 stays, twice restores row 2, four times restore the state, and rows
that are each constant stay. -/
def Obligations.ShiftrowsRotatesLeft : Prop :=
  ∀ s : State,
    (∃ t, exec .shiftrows s = .next t ∧ s.OnlyCipher t ∧
      (∀ r c : Fin 4, t.cipherByte r c = s.cipherByte r ⟨(c.val + r.val) % 4, by omega⟩) ∧
      ((∀ r c d : Fin 4, s.cipherByte r c = s.cipherByte r d) → t.cipher = s.cipher)) ∧
    (∃ t, performAll [cmd .shiftrows, cmd .shiftrows] s = .next t ∧
      ∀ c : Fin 4, t.cipherByte 2 c = s.cipherByte 2 c) ∧
    performAll [cmd .shiftrows, cmd .shiftrows, cmd .shiftrows, cmd .shiftrows] s = .next { s with lastErr := 0#4 }

/-- R143: INVSHIFTROWS rotates row `r` right by `r`, and undoes SHIFTROWS in either order. -/
def Obligations.InvshiftrowsRotatesRight : Prop :=
  ∀ s : State,
    (∃ t, exec .invshiftrows s = .next t ∧ s.OnlyCipher t ∧
      ∀ r c : Fin 4, t.cipherByte r c = s.cipherByte r ⟨(c.val + (4 - r.val)) % 4, by omega⟩) ∧
    performAll [cmd .shiftrows, cmd .invshiftrows] s = .next { s with lastErr := 0#4 } ∧
    performAll [cmd .invshiftrows, cmd .shiftrows] s = .next { s with lastErr := 0#4 }

/-- R145, with the matrix of R144 written out: MIXCOLUMNS multiplies every column by M; it is linear over xor, and a column of
four equal bytes, the zero column among them, stays. -/
def Obligations.MixcolumnsMultipliesByM : Prop :=
  ∀ s : State, ∃ t, exec .mixcolumns s = .next t ∧ s.OnlyCipher t ∧
    (∀ n : Columns, ∃ u, exec .mixcolumns { s with cipher := addRoundKey n s.cipher } = .next u ∧
      u.cipher = addRoundKey (mixColumns n) t.cipher) ∧
    ∀ c : Fin 4,
      let s0 := s.cipherByte 0 c; let s1 := s.cipherByte 1 c; let s2 := s.cipherByte 2 c; let s3 := s.cipherByte 3 c
      t.cipherByte 0 c = gmul 0x02#8 s0 ^^^ gmul 0x03#8 s1 ^^^ gmul 0x01#8 s2 ^^^ gmul 0x01#8 s3 ∧
      t.cipherByte 1 c = gmul 0x01#8 s0 ^^^ gmul 0x02#8 s1 ^^^ gmul 0x03#8 s2 ^^^ gmul 0x01#8 s3 ∧
      t.cipherByte 2 c = gmul 0x01#8 s0 ^^^ gmul 0x01#8 s1 ^^^ gmul 0x02#8 s2 ^^^ gmul 0x03#8 s3 ∧
      t.cipherByte 3 c = gmul 0x03#8 s0 ^^^ gmul 0x01#8 s1 ^^^ gmul 0x01#8 s2 ^^^ gmul 0x02#8 s3 ∧
      (s0 = s1 → s1 = s2 → s2 = s3 → t.cipher[c] = s.cipher[c])

/-- R146, with the matrix of R144 written out: INVMIXCOLUMNS multiplies every column by M' and undoes MIXCOLUMNS in either
order. -/
def Obligations.InvmixcolumnsMultipliesByInverse : Prop :=
  ∀ s : State,
    (∃ t, exec .invmixcolumns s = .next t ∧ s.OnlyCipher t ∧
      ∀ c : Fin 4,
        let s0 := s.cipherByte 0 c; let s1 := s.cipherByte 1 c; let s2 := s.cipherByte 2 c; let s3 := s.cipherByte 3 c
        t.cipherByte 0 c = gmul 0x0E#8 s0 ^^^ gmul 0x0B#8 s1 ^^^ gmul 0x0D#8 s2 ^^^ gmul 0x09#8 s3 ∧
        t.cipherByte 1 c = gmul 0x09#8 s0 ^^^ gmul 0x0E#8 s1 ^^^ gmul 0x0B#8 s2 ^^^ gmul 0x0D#8 s3 ∧
        t.cipherByte 2 c = gmul 0x0D#8 s0 ^^^ gmul 0x09#8 s1 ^^^ gmul 0x0E#8 s2 ^^^ gmul 0x0B#8 s3 ∧
        t.cipherByte 3 c = gmul 0x0B#8 s0 ^^^ gmul 0x0D#8 s1 ^^^ gmul 0x09#8 s2 ^^^ gmul 0x0E#8 s3 ∧
        (s0 = s1 → s1 = s2 → s2 = s3 → t.cipher[c] = s.cipher[c])) ∧
    performAll [cmd .mixcolumns, cmd .invmixcolumns] s = .next { s with lastErr := 0#4 } ∧
    performAll [cmd .invmixcolumns, cmd .mixcolumns] s = .next { s with lastErr := 0#4 }

/-- R147: ADDROUNDKEY writes `STATEc xor RKEYc` to every STATEc, byte by byte; twice restores the state, and a zero key
leaves it. -/
def Obligations.AddroundkeyXorsTheKey : Prop :=
  ∀ s : State,
    (∃ t, exec .addroundkey s = .next t ∧ s.OnlyCipher t ∧
      (∀ r c : Fin 4, t.cipherByte r c = s.cipherByte r c ^^^ s.keyByte r c) ∧
      (∀ c : Fin 4, t.cipher[c] = s.cipher[c] ^^^ s.rkey[c]) ∧
      ((∀ c : Fin 4, s.rkey[c] = 0#32) → t.cipher = s.cipher)) ∧
    performAll [cmd .addroundkey, cmd .addroundkey] s = .next { s with lastErr := 0#4 }

/-- Derived from R146 (the linearity of R145, for M') and R148 (SubBytes commutes with ShiftRows), on matrices. -/
def Obligations.TransformAlgebra : Prop :=
  (∀ m n : Columns, invMixColumns (addRoundKey n m) = addRoundKey (invMixColumns n) (invMixColumns m)) ∧
  ∀ (t : Table) (m : Columns), subBytes t (shiftRows m) = shiftRows (subBytes t m)

/-- R160: with a valid table ENCROUND is SubBytes, ShiftRows, MixColumns and AddRoundKey in one command: the bytes it
leaves, and the same state as the four commands in order; without one it fails with NoTable. -/
def Obligations.EncroundAppliesFourTransforms : Prop :=
  ∀ s : State,
    (s.tv = true → ∃ t, exec .encround s = .next t ∧ s.OnlyCipher t ∧
      (∀ r c : Fin 4,
        let b (k : Fin 4) : Byte := tableGet s.sbox (s.cipherByte k ⟨(c.val + k.val) % 4, by omega⟩)
        let m (k : Fin 4) : Byte := mixRow[(k - r : Fin 4)]
        t.cipherByte r c =
          gmul (m 0) (b 0) ^^^ gmul (m 1) (b 1) ^^^ gmul (m 2) (b 2) ^^^ gmul (m 3) (b 3) ^^^ s.keyByte r c) ∧
      performAll [cmd .subbytes, cmd .shiftrows, cmd .mixcolumns, cmd .addroundkey] s = .next t) ∧
    (s.tv = false → exec .encround s = .next { s with lastErr := 7#4, errSeen := true })

/-- R161: with a valid table DECROUND is AddRoundKey, InvMixColumns, InvShiftRows and InvSubBytes in one command; without
one it fails with NoTable. While the tables are inverse to each other, DECROUND after ENCROUND restores STATE. -/
def Obligations.DecroundUndoesEncround : Prop :=
  ∀ s : State,
    (s.tv = true → ∃ t, exec .decround s = .next t ∧ s.OnlyCipher t ∧
      performAll [cmd .addroundkey, cmd .invmixcolumns, cmd .invshiftrows, cmd .invsubbytes] s = .next t) ∧
    (s.tv = false → exec .decround s = .next { s with lastErr := 7#4, errSeen := true }) ∧
    (s.tv = true → tablesInverse s.sbox s.inv →
      performAll [cmd .encround, cmd .decround] s = .next { s with lastErr := 0#4 } ∧
      performAll [cmd .decround, cmd .encround] s = .next { s with lastErr := 0#4 })

/-! ### Tables (41_table.md) -/

/-- R111: a TBL_DATA write of `v`. TV falls; a value above 255 sets OOR and is not stored; any other is stored at index
TBL_COUNT when that is below 256; TBL_COUNT counts on, up to 0xFFFF. Nothing else changes. -/
def Obligations.TableDataWriteAppends : Prop :=
  ∀ (v : Word) (s : State), ∃ t, perform (.write 0x0C#6 32 v) s = .next t ∧
    t = { s with tv := false, oor := t.oor, sbox := t.sbox, tblCount := t.tblCount } ∧
    t.oor = (s.oor || decide (255 < v.toNat)) ∧
    t.tblCount.toNat = min (s.tblCount.toNat + 1) 0xFFFF ∧
    ∀ x : Byte, (tableGet t.sbox x).toNat =
      if v.toNat ≤ 255 ∧ x.toNat = s.tblCount.toNat then v.toNat else (tableGet s.sbox x).toNat

/-- R112: TBLCLR clears TBL_COUNT, OOR, TV and LASTERR, and changes nothing else, the tables included. -/
def Obligations.TblclrStartsLoad : Prop :=
  ∀ s : State, exec .tblclr s = .next { s with tblCount := 0#16, oor := false, tv := false, lastErr := 0#4 }

/-- Derived from R113: TBLCOMMIT's checks in their order: the length, the range, then a value that stands at two indices. Each
failure reports its code and changes nothing else, and MissingValue is never reported. That a table with a repeated value
reports code 3 and not code 4 is the spec's own decision between two sentences of its source (D15, 90_conflicts.md C2), which
the model follows (log 15, DEDUCED). 93_implementation_defined.md says "A claim must not depend on the choice between 3 and 4":
the clause with code 3 speaks of this spec's decision alone. -/
def Obligations.TblcommitChecksInOrder : Prop :=
  ∀ s : State,
    (s.tblCount ≠ 256#16 → exec .tblcommit s = .next { s with lastErr := 1#4, errSeen := true }) ∧
    (s.tblCount = 256#16 → s.oor = true → exec .tblcommit s = .next { s with lastErr := 2#4, errSeen := true }) ∧
    (s.tblCount = 256#16 → s.oor = false → (∃ x y, x ≠ y ∧ tableGet s.sbox x = tableGet s.sbox y) →
      exec .tblcommit s = .next { s with lastErr := 3#4, errSeen := true }) ∧
    ∃ t, exec .tblcommit s = .next t ∧ t.lastErr ≠ 4#4

/-- R114: when the checks pass, TBLCOMMIT builds INV, whatever it held, as the inverse of SBOX in both directions, sets TV,
clears LASTERR, and changes nothing else. -/
def Obligations.TblcommitBuildsInverse : Prop :=
  ∀ s : State, s.tblCount = 256#16 → s.oor = false →
    (∀ x y, tableGet s.sbox x = tableGet s.sbox y → x = y) →
    ∃ t, exec .tblcommit s = .next t ∧ t = { s with inv := t.inv, tv := true, lastErr := 0#4 } ∧
      (∀ x, tableGet t.inv (tableGet s.sbox x) = x) ∧ ∀ y, tableGet s.sbox (tableGet t.inv y) = y

/-- R174: codes 4 and 5 are unreachable: in every state TBLCOMMIT answers a next state, and reports neither. -/
def Obligations.TblcommitNeverFaults : Prop :=
  ∀ s : State, ∃ t, exec .tblcommit s = .next t ∧ t.lastErr ≠ 4#4 ∧ t.lastErr ≠ 5#4

/-- R115, R116: with a valid table SBOXRD and INVRD write the entry at index `a` to RESULT; without one they fail with
NoTable. While the tables are inverse, INVRD of what SBOXRD gave gives the index back. -/
def Obligations.LookupsReadTheTables : Prop :=
  ∀ (s : State) (a : Byte),
    (s.tv = true →
      exec (.sboxrd a) s = .next { s with result := tableGet s.sbox a, lastErr := 0#4 } ∧
      exec (.invrd a) s = .next { s with result := tableGet s.inv a, lastErr := 0#4 }) ∧
    (s.tv = false →
      exec (.sboxrd a) s = .next { s with lastErr := 7#4, errSeen := true } ∧
      exec (.invrd a) s = .next { s with lastErr := 7#4, errSeen := true }) ∧
    (s.tv = true → tablesInverse s.sbox s.inv → ∃ t, exec (.sboxrd a) s = .next t ∧
      exec (.invrd t.result) t = .next { s with result := a, lastErr := 0#4 })

/-- Derived from R76, R110 to R114: LOADTABLE of any sequence of words, from any state. It commits exactly when there are 256
values, each at most 255 and no two equal; then SBOX holds them in order and INV is its inverse. Otherwise the first
failing check is reported and no table is valid. The clause with code 3 rests on the choice of code 3 before code 4 (D15,
90_conflicts.md C2; log 15, DEDUCED). -/
def Obligations.LoadTableValidatesSequence : Prop :=
  ∀ (values : List Word) (s : State), ∃ t, performAll (loadTable values) s = .next t ∧
    t.result = s.result ∧ t.cipher = s.cipher ∧ t.rkey = s.rkey ∧
    (values.length ≠ 256 → t.tv = false ∧ t.lastErr = 1#4) ∧
    (values.length = 256 → (∃ v ∈ values, 255 < v.toNat) → t.tv = false ∧ t.lastErr = 2#4) ∧
    (values.length = 256 → (∀ v ∈ values, v.toNat ≤ 255) → ¬ values.Nodup → t.tv = false ∧ t.lastErr = 3#4) ∧
    (values.length = 256 → (∀ v ∈ values, v.toNat ≤ 255) → values.Nodup →
      t.tv = true ∧ t.lastErr = 0#4 ∧ tablesInverse t.sbox t.inv ∧
      ∀ x : Byte, values[x.toNat]? = some ((tableGet t.sbox x).setWidth 32))

/-! ### Reset and invariants (70_reset_and_hazards.md, 10_state.md) -/

/-- R190: the reset input, in any state: STATUS and its fields, RESULT, TBL_COUNT, STATE and RKEY are 0. -/
def Obligations.ResetInputClearsRegisters : Prop :=
  ∀ s : State, ∃ t, perform .reset s = .next t ∧
    t.tv = false ∧ t.oor = false ∧ t.lastErr = 0#4 ∧ t.errSeen = false ∧ statusWord t = 0#32 ∧
    t.result = 0#8 ∧ t.tblCount = 0#16 ∧ ∀ c : Fin 4, t.cipher[c] = 0#32 ∧ t.rkey[c] = 0#32

/-- Derived from R20 (its column of reset values): every register of the window reads 0 right after reset. -/
def Obligations.ResetStateReadsZero : Prop := ∀ r : Reg, readReg r State.reset = 0#32

/-- Derived from R26, R28, R29, R111, R112, R114, R117, R170: from every state in which a valid table's INV undoes SBOX and
SBOX undoes INV, a valid table is fully loaded, and LASTERR is a produced code, every step leads to such a state. -/
def Obligations.StepKeepsInvariant : Prop := ∀ s t : State, s.Inv → step s = .next t → t.Inv

/-- Derived from R190: the invariant holds at reset. -/
def Obligations.ResetHasInvariant : Prop := State.reset.Inv

/-- Derived from R191 and R58: two states the host cannot tell apart stay so under every step, and stop alike. -/
def Obligations.StepKeepsAgreement : Prop :=
  ∀ s s' : State, s.Agree s' →
    (∀ t, step s = .next t → ∃ t', step s' = .next t' ∧ t.Agree t') ∧
    (∀ f, step s = .fault f ↔ step s' = .fault f) ∧ ∀ r, step s = .refused r ↔ step s' = .refused r

/-- Derived from R191: whatever the tables hold after reset, the host cannot observe it: for any inputs and any number of
steps, a run from reset with other table contents stops alike, returns the same words, and leaves every register reading the
same. The model's choices it rests on: the inputs stand in `pending` (log 1), the words read in `returned` (log 2), and the
tables of `State.reset`, one of the contents compared, hold 0 (log 4); each is marked DESIGN CHOICE. -/
def Obligations.ResetTablesUnobservable : Prop :=
  ∀ (inputs : List Input) (sbox inv : Table) (k : Nat),
    let run (s : State) := Host.Core.run Sys2Proof.core k s
    let start : State := { State.reset with pending := inputs }
    let other : State := { State.reset with sbox := sbox, inv := inv, pending := inputs }
    (∀ t : State, run start = .next t → ∃ t' : State, run other = .next t' ∧ t'.returned = t.returned ∧
      ∀ r, readReg r t' = readReg r t) ∧
    (∀ f, run start = .fault f ↔ run other = .fault f) ∧ ∀ r, run start = .refused r ↔ run other = .refused r

/-! ### The host's procedures (44_rounds.md; outside the block, log 13) -/

/-- R162: the round keys are the consecutive 16-byte pieces of `KEY_STRETCH(key, ROUNDS)`, for whatever function that is. -/
def Obligations.RoundKeysCutTheStretchedKey : Prop :=
  ∀ (p : Params) (key : List Byte),
    (roundKeys p key).length = p.rounds ∧
    (bytesOf (roundKeys p key)) = (p.keyStretch key p.rounds).toList

/-- Derived from R165 (its first three sentences): the padding, its length, and the padded length. -/
def Obligations.PaddingFillsTheBlock : Prop :=
  ∀ message : List Byte, ∃ n : Nat, 1 ≤ n ∧ n ≤ 16 ∧ n + message.length % 16 = 16 ∧
    pad message = message ++ List.replicate n (BitVec.ofNat 8 n) ∧ (pad message).length % 16 = 0 ∧
    bytesOf (blocksOf (pad message)) = pad message

/-- Derived from R166: the padding is accepted exactly when the last byte is an `n` in 1 .. 16 and the last `n` bytes all
equal it, and then exactly these are removed; anything else is PaddingError. -/
def Obligations.UnpadAcceptsExactlyPadding : Prop :=
  ∀ padded : List Byte,
    (∀ message, unpad padded = .ok message ↔
      ∃ n : Nat, 1 ≤ n ∧ n ≤ 16 ∧ padded = message ++ List.replicate n (BitVec.ofNat 8 n)) ∧
    ((∀ message, unpad padded ≠ .ok message) → unpad padded = .error .paddingError)

/-- Derived from R162 and R166: what the host's procedures refuse: an empty key, and a ciphertext whose length is no positive
multiple of 16. -/
def Obligations.HostProceduresRefuse : Prop :=
  ∀ (p : Params) (key bytes : List Byte) (s : State),
    (key = [] → hostEncrypt p key bytes s = .error .emptyKey ∧ hostDecrypt p key bytes s = .error .emptyKey) ∧
    (key ≠ [] → (bytes = [] ∨ bytes.length % 16 ≠ 0) → hostDecrypt p key bytes s = .error .paddingError)

/-- Derived from R163 and R164 (its last sentence): with the same valid table and the same round keys, whatever they are and however
many, decrypting a block's encryption gives the block back. -/
def Obligations.BlockRoundTrip : Prop :=
  ∀ (keys : List Block) (b : Block) (s : State), s.tv = true → tablesInverse s.sbox s.inv →
    ∃ s1 c s2, hostEncryptBlock keys b s = .ok (s1, c) ∧ hostDecryptBlock keys c s1 = .ok (s2, b)

/-- Derived from R167: for every non-empty key and every byte string, whatever ROUNDS, KEY_STRETCH and the validated table,
decrypting the encryption gives the byte string back. -/
def Obligations.MessageRoundTrip : Prop :=
  ∀ (p : Params) (key message : List Byte) (s : State), key ≠ [] → s.tv = true → tablesInverse s.sbox s.inv →
    ∃ s1 c s2, hostEncrypt p key message s = .ok (s1, c) ∧ hostDecrypt p key c s1 = .ok (s2, message)

/-- Derived from R167 (its last sentence, 90_conflicts.md C1): the empty plaintext encrypts to one 16-byte block, the
encryption of sixteen 0x10 bytes. -/
def Obligations.EmptyPlaintextIsOneBlock : Prop :=
  ∀ (p : Params) (key : List Byte) (s : State), key ≠ [] →
    ∃ s1 b, hostEncryptBlock (roundKeys p key) (Vector.replicate 16 0x10#8) s = .ok (s1, b) ∧
      hostEncrypt p key [] s = .ok (s1, b.toList) ∧ b.toList.length = 16
end

