-- ==== Sys2Proof/Laws/State.lean ====
section
/-! SUPPORT. For each named update of the state and each field, what the field holds after it. Later proofs cite these
and unfold no record update. -/

namespace Sys2Proof.Machine

section complete
@[simp] theorem complete_tv (s : State) : (complete s).tv = s.tv := rfl
@[simp] theorem complete_oor (s : State) : (complete s).oor = s.oor := rfl
@[simp] theorem complete_lastErr (s : State) : (complete s).lastErr = 0#4 := rfl
@[simp] theorem complete_errSeen (s : State) : (complete s).errSeen = s.errSeen := rfl
@[simp] theorem complete_result (s : State) : (complete s).result = s.result := rfl
@[simp] theorem complete_tblCount (s : State) : (complete s).tblCount = s.tblCount := rfl
@[simp] theorem complete_cipher (s : State) : (complete s).cipher = s.cipher := rfl
@[simp] theorem complete_rkey (s : State) : (complete s).rkey = s.rkey := rfl
@[simp] theorem complete_sbox (s : State) : (complete s).sbox = s.sbox := rfl
@[simp] theorem complete_inv (s : State) : (complete s).inv = s.inv := rfl
@[simp] theorem complete_pending (s : State) : (complete s).pending = s.pending := rfl
@[simp] theorem complete_returned (s : State) : (complete s).returned = s.returned := rfl
end complete

section raiseErr
@[simp] theorem raiseErr_tv (e : ErrCode) (s : State) : (raiseErr e s).tv = s.tv := rfl
@[simp] theorem raiseErr_oor (e : ErrCode) (s : State) : (raiseErr e s).oor = s.oor := rfl
@[simp] theorem raiseErr_lastErr (e : ErrCode) (s : State) : (raiseErr e s).lastErr = errNumber e := rfl
@[simp] theorem raiseErr_errSeen (e : ErrCode) (s : State) : (raiseErr e s).errSeen = true := rfl
@[simp] theorem raiseErr_result (e : ErrCode) (s : State) : (raiseErr e s).result = s.result := rfl
@[simp] theorem raiseErr_tblCount (e : ErrCode) (s : State) : (raiseErr e s).tblCount = s.tblCount := rfl
@[simp] theorem raiseErr_cipher (e : ErrCode) (s : State) : (raiseErr e s).cipher = s.cipher := rfl
@[simp] theorem raiseErr_rkey (e : ErrCode) (s : State) : (raiseErr e s).rkey = s.rkey := rfl
@[simp] theorem raiseErr_sbox (e : ErrCode) (s : State) : (raiseErr e s).sbox = s.sbox := rfl
@[simp] theorem raiseErr_inv (e : ErrCode) (s : State) : (raiseErr e s).inv = s.inv := rfl
@[simp] theorem raiseErr_pending (e : ErrCode) (s : State) : (raiseErr e s).pending = s.pending := rfl
@[simp] theorem raiseErr_returned (e : ErrCode) (s : State) : (raiseErr e s).returned = s.returned := rfl
end raiseErr

section writeResult
@[simp] theorem writeResult_tv (v : Byte) (s : State) : (writeResult v s).tv = s.tv := rfl
@[simp] theorem writeResult_oor (v : Byte) (s : State) : (writeResult v s).oor = s.oor := rfl
@[simp] theorem writeResult_lastErr (v : Byte) (s : State) : (writeResult v s).lastErr = s.lastErr := rfl
@[simp] theorem writeResult_errSeen (v : Byte) (s : State) : (writeResult v s).errSeen = s.errSeen := rfl
@[simp] theorem writeResult_result (v : Byte) (s : State) : (writeResult v s).result = v := rfl
@[simp] theorem writeResult_tblCount (v : Byte) (s : State) : (writeResult v s).tblCount = s.tblCount := rfl
@[simp] theorem writeResult_cipher (v : Byte) (s : State) : (writeResult v s).cipher = s.cipher := rfl
@[simp] theorem writeResult_rkey (v : Byte) (s : State) : (writeResult v s).rkey = s.rkey := rfl
@[simp] theorem writeResult_sbox (v : Byte) (s : State) : (writeResult v s).sbox = s.sbox := rfl
@[simp] theorem writeResult_inv (v : Byte) (s : State) : (writeResult v s).inv = s.inv := rfl
@[simp] theorem writeResult_pending (v : Byte) (s : State) : (writeResult v s).pending = s.pending := rfl
@[simp] theorem writeResult_returned (v : Byte) (s : State) : (writeResult v s).returned = s.returned := rfl
end writeResult

section writeCipher
@[simp] theorem writeCipher_tv (m : Columns) (s : State) : (writeCipher m s).tv = s.tv := rfl
@[simp] theorem writeCipher_oor (m : Columns) (s : State) : (writeCipher m s).oor = s.oor := rfl
@[simp] theorem writeCipher_lastErr (m : Columns) (s : State) : (writeCipher m s).lastErr = s.lastErr := rfl
@[simp] theorem writeCipher_errSeen (m : Columns) (s : State) : (writeCipher m s).errSeen = s.errSeen := rfl
@[simp] theorem writeCipher_result (m : Columns) (s : State) : (writeCipher m s).result = s.result := rfl
@[simp] theorem writeCipher_tblCount (m : Columns) (s : State) : (writeCipher m s).tblCount = s.tblCount := rfl
@[simp] theorem writeCipher_cipher (m : Columns) (s : State) : (writeCipher m s).cipher = m := rfl
@[simp] theorem writeCipher_rkey (m : Columns) (s : State) : (writeCipher m s).rkey = s.rkey := rfl
@[simp] theorem writeCipher_sbox (m : Columns) (s : State) : (writeCipher m s).sbox = s.sbox := rfl
@[simp] theorem writeCipher_inv (m : Columns) (s : State) : (writeCipher m s).inv = s.inv := rfl
@[simp] theorem writeCipher_pending (m : Columns) (s : State) : (writeCipher m s).pending = s.pending := rfl
@[simp] theorem writeCipher_returned (m : Columns) (s : State) : (writeCipher m s).returned = s.returned := rfl
end writeCipher

section writeStateReg
@[simp] theorem writeStateReg_tv (c : Fin 4) (v : Word) (s : State) : (writeStateReg c v s).tv = s.tv := rfl
@[simp] theorem writeStateReg_oor (c : Fin 4) (v : Word) (s : State) : (writeStateReg c v s).oor = s.oor := rfl
@[simp] theorem writeStateReg_lastErr (c : Fin 4) (v : Word) (s : State) :
    (writeStateReg c v s).lastErr =
      s.lastErr := rfl
@[simp] theorem writeStateReg_errSeen (c : Fin 4) (v : Word) (s : State) :
    (writeStateReg c v s).errSeen =
      s.errSeen := rfl
@[simp] theorem writeStateReg_result (c : Fin 4) (v : Word) (s : State) :
    (writeStateReg c v s).result =
      s.result := rfl
@[simp] theorem writeStateReg_tblCount (c : Fin 4) (v : Word) (s : State) :
    (writeStateReg c v s).tblCount =
      s.tblCount := rfl
@[simp] theorem writeStateReg_cipher (c : Fin 4) (v : Word) (s : State) :
    (writeStateReg c v s).cipher =
      s.cipher.set c.val v c.isLt := rfl
@[simp] theorem writeStateReg_rkey (c : Fin 4) (v : Word) (s : State) : (writeStateReg c v s).rkey = s.rkey := rfl
@[simp] theorem writeStateReg_sbox (c : Fin 4) (v : Word) (s : State) : (writeStateReg c v s).sbox = s.sbox := rfl
@[simp] theorem writeStateReg_inv (c : Fin 4) (v : Word) (s : State) : (writeStateReg c v s).inv = s.inv := rfl
@[simp] theorem writeStateReg_pending (c : Fin 4) (v : Word) (s : State) :
    (writeStateReg c v s).pending =
      s.pending := rfl
@[simp] theorem writeStateReg_returned (c : Fin 4) (v : Word) (s : State) :
    (writeStateReg c v s).returned =
      s.returned := rfl
end writeStateReg

section writeKeyReg
@[simp] theorem writeKeyReg_tv (c : Fin 4) (v : Word) (s : State) : (writeKeyReg c v s).tv = s.tv := rfl
@[simp] theorem writeKeyReg_oor (c : Fin 4) (v : Word) (s : State) : (writeKeyReg c v s).oor = s.oor := rfl
@[simp] theorem writeKeyReg_lastErr (c : Fin 4) (v : Word) (s : State) :
    (writeKeyReg c v s).lastErr =
      s.lastErr := rfl
@[simp] theorem writeKeyReg_errSeen (c : Fin 4) (v : Word) (s : State) :
    (writeKeyReg c v s).errSeen =
      s.errSeen := rfl
@[simp] theorem writeKeyReg_result (c : Fin 4) (v : Word) (s : State) : (writeKeyReg c v s).result = s.result := rfl
@[simp] theorem writeKeyReg_tblCount (c : Fin 4) (v : Word) (s : State) :
    (writeKeyReg c v s).tblCount =
      s.tblCount := rfl
@[simp] theorem writeKeyReg_cipher (c : Fin 4) (v : Word) (s : State) : (writeKeyReg c v s).cipher = s.cipher := rfl
@[simp] theorem writeKeyReg_rkey (c : Fin 4) (v : Word) (s : State) :
    (writeKeyReg c v s).rkey =
      s.rkey.set c.val v c.isLt := rfl
@[simp] theorem writeKeyReg_sbox (c : Fin 4) (v : Word) (s : State) : (writeKeyReg c v s).sbox = s.sbox := rfl
@[simp] theorem writeKeyReg_inv (c : Fin 4) (v : Word) (s : State) : (writeKeyReg c v s).inv = s.inv := rfl
@[simp] theorem writeKeyReg_pending (c : Fin 4) (v : Word) (s : State) :
    (writeKeyReg c v s).pending =
      s.pending := rfl
@[simp] theorem writeKeyReg_returned (c : Fin 4) (v : Word) (s : State) :
    (writeKeyReg c v s).returned =
      s.returned := rfl
end writeKeyReg

section pushReturned
@[simp] theorem pushReturned_tv (v : Word) (s : State) : (pushReturned v s).tv = s.tv := rfl
@[simp] theorem pushReturned_oor (v : Word) (s : State) : (pushReturned v s).oor = s.oor := rfl
@[simp] theorem pushReturned_lastErr (v : Word) (s : State) : (pushReturned v s).lastErr = s.lastErr := rfl
@[simp] theorem pushReturned_errSeen (v : Word) (s : State) : (pushReturned v s).errSeen = s.errSeen := rfl
@[simp] theorem pushReturned_result (v : Word) (s : State) : (pushReturned v s).result = s.result := rfl
@[simp] theorem pushReturned_tblCount (v : Word) (s : State) : (pushReturned v s).tblCount = s.tblCount := rfl
@[simp] theorem pushReturned_cipher (v : Word) (s : State) : (pushReturned v s).cipher = s.cipher := rfl
@[simp] theorem pushReturned_rkey (v : Word) (s : State) : (pushReturned v s).rkey = s.rkey := rfl
@[simp] theorem pushReturned_sbox (v : Word) (s : State) : (pushReturned v s).sbox = s.sbox := rfl
@[simp] theorem pushReturned_inv (v : Word) (s : State) : (pushReturned v s).inv = s.inv := rfl
@[simp] theorem pushReturned_pending (v : Word) (s : State) : (pushReturned v s).pending = s.pending := rfl
@[simp] theorem pushReturned_returned (v : Word) (s : State) : (pushReturned v s).returned = v :: s.returned := rfl
end pushReturned

section tableAppend
@[simp] theorem tableAppend_tv (v : Word) (s : State) : (tableAppend v s).tv = false := rfl
@[simp] theorem tableAppend_oor (v : Word) (s : State) :
    (tableAppend v s).oor =
      if 255 < v.toNat then true else s.oor := rfl
@[simp] theorem tableAppend_lastErr (v : Word) (s : State) : (tableAppend v s).lastErr = s.lastErr := rfl
@[simp] theorem tableAppend_errSeen (v : Word) (s : State) : (tableAppend v s).errSeen = s.errSeen := rfl
@[simp] theorem tableAppend_result (v : Word) (s : State) : (tableAppend v s).result = s.result := rfl
@[simp] theorem tableAppend_tblCount (v : Word) (s : State) : (tableAppend v s).tblCount = countUp s.tblCount := rfl
@[simp] theorem tableAppend_cipher (v : Word) (s : State) : (tableAppend v s).cipher = s.cipher := rfl
@[simp] theorem tableAppend_rkey (v : Word) (s : State) : (tableAppend v s).rkey = s.rkey := rfl
@[simp] theorem tableAppend_sbox (v : Word) (s : State) :
    (tableAppend v s).sbox =
      if v.toNat ≤ 255 ∧ s.tblCount.toNat < 256 then s.sbox.setIfInBounds s.tblCount.toNat (v.setWidth 8) else s.sbox := rfl
@[simp] theorem tableAppend_inv (v : Word) (s : State) : (tableAppend v s).inv = s.inv := rfl
@[simp] theorem tableAppend_pending (v : Word) (s : State) : (tableAppend v s).pending = s.pending := rfl
@[simp] theorem tableAppend_returned (v : Word) (s : State) : (tableAppend v s).returned = s.returned := rfl
end tableAppend

section tableClear
@[simp] theorem tableClear_tv (s : State) : (tableClear s).tv = false := rfl
@[simp] theorem tableClear_oor (s : State) : (tableClear s).oor = false := rfl
@[simp] theorem tableClear_lastErr (s : State) : (tableClear s).lastErr = s.lastErr := rfl
@[simp] theorem tableClear_errSeen (s : State) : (tableClear s).errSeen = s.errSeen := rfl
@[simp] theorem tableClear_result (s : State) : (tableClear s).result = s.result := rfl
@[simp] theorem tableClear_tblCount (s : State) : (tableClear s).tblCount = 0#16 := rfl
@[simp] theorem tableClear_cipher (s : State) : (tableClear s).cipher = s.cipher := rfl
@[simp] theorem tableClear_rkey (s : State) : (tableClear s).rkey = s.rkey := rfl
@[simp] theorem tableClear_sbox (s : State) : (tableClear s).sbox = s.sbox := rfl
@[simp] theorem tableClear_inv (s : State) : (tableClear s).inv = s.inv := rfl
@[simp] theorem tableClear_pending (s : State) : (tableClear s).pending = s.pending := rfl
@[simp] theorem tableClear_returned (s : State) : (tableClear s).returned = s.returned := rfl
end tableClear

section tableCommit
@[simp] theorem tableCommit_tv (i : Table) (s : State) : (tableCommit i s).tv = true := rfl
@[simp] theorem tableCommit_oor (i : Table) (s : State) : (tableCommit i s).oor = s.oor := rfl
@[simp] theorem tableCommit_lastErr (i : Table) (s : State) : (tableCommit i s).lastErr = s.lastErr := rfl
@[simp] theorem tableCommit_errSeen (i : Table) (s : State) : (tableCommit i s).errSeen = s.errSeen := rfl
@[simp] theorem tableCommit_result (i : Table) (s : State) : (tableCommit i s).result = s.result := rfl
@[simp] theorem tableCommit_tblCount (i : Table) (s : State) : (tableCommit i s).tblCount = s.tblCount := rfl
@[simp] theorem tableCommit_cipher (i : Table) (s : State) : (tableCommit i s).cipher = s.cipher := rfl
@[simp] theorem tableCommit_rkey (i : Table) (s : State) : (tableCommit i s).rkey = s.rkey := rfl
@[simp] theorem tableCommit_sbox (i : Table) (s : State) : (tableCommit i s).sbox = s.sbox := rfl
@[simp] theorem tableCommit_inv (i : Table) (s : State) : (tableCommit i s).inv = i := rfl
@[simp] theorem tableCommit_pending (i : Table) (s : State) : (tableCommit i s).pending = s.pending := rfl
@[simp] theorem tableCommit_returned (i : Table) (s : State) : (tableCommit i s).returned = s.returned := rfl
end tableCommit

section takeInput
@[simp] theorem takeInput_tv (rest : List Input) (s : State) : (takeInput rest s).tv = s.tv := rfl
@[simp] theorem takeInput_oor (rest : List Input) (s : State) : (takeInput rest s).oor = s.oor := rfl
@[simp] theorem takeInput_lastErr (rest : List Input) (s : State) : (takeInput rest s).lastErr = s.lastErr := rfl
@[simp] theorem takeInput_errSeen (rest : List Input) (s : State) : (takeInput rest s).errSeen = s.errSeen := rfl
@[simp] theorem takeInput_result (rest : List Input) (s : State) : (takeInput rest s).result = s.result := rfl
@[simp] theorem takeInput_tblCount (rest : List Input) (s : State) : (takeInput rest s).tblCount = s.tblCount := rfl
@[simp] theorem takeInput_cipher (rest : List Input) (s : State) : (takeInput rest s).cipher = s.cipher := rfl
@[simp] theorem takeInput_rkey (rest : List Input) (s : State) : (takeInput rest s).rkey = s.rkey := rfl
@[simp] theorem takeInput_sbox (rest : List Input) (s : State) : (takeInput rest s).sbox = s.sbox := rfl
@[simp] theorem takeInput_inv (rest : List Input) (s : State) : (takeInput rest s).inv = s.inv := rfl
@[simp] theorem takeInput_pending (rest : List Input) (s : State) : (takeInput rest s).pending = rest := rfl
@[simp] theorem takeInput_returned (rest : List Input) (s : State) : (takeInput rest s).returned = s.returned := rfl
end takeInput

section prependInput
@[simp] theorem prependInput_tv (i : Input) (s : State) : (prependInput i s).tv = s.tv := rfl
@[simp] theorem prependInput_oor (i : Input) (s : State) : (prependInput i s).oor = s.oor := rfl
@[simp] theorem prependInput_lastErr (i : Input) (s : State) : (prependInput i s).lastErr = s.lastErr := rfl
@[simp] theorem prependInput_errSeen (i : Input) (s : State) : (prependInput i s).errSeen = s.errSeen := rfl
@[simp] theorem prependInput_result (i : Input) (s : State) : (prependInput i s).result = s.result := rfl
@[simp] theorem prependInput_tblCount (i : Input) (s : State) : (prependInput i s).tblCount = s.tblCount := rfl
@[simp] theorem prependInput_cipher (i : Input) (s : State) : (prependInput i s).cipher = s.cipher := rfl
@[simp] theorem prependInput_rkey (i : Input) (s : State) : (prependInput i s).rkey = s.rkey := rfl
@[simp] theorem prependInput_sbox (i : Input) (s : State) : (prependInput i s).sbox = s.sbox := rfl
@[simp] theorem prependInput_inv (i : Input) (s : State) : (prependInput i s).inv = s.inv := rfl
@[simp] theorem prependInput_pending (i : Input) (s : State) : (prependInput i s).pending = i :: s.pending := rfl
@[simp] theorem prependInput_returned (i : Input) (s : State) : (prependInput i s).returned = s.returned := rfl
end prependInput

section applyReset
@[simp] theorem applyReset_tv (s : State) : (applyReset s).tv = State.reset.tv := rfl
@[simp] theorem applyReset_oor (s : State) : (applyReset s).oor = State.reset.oor := rfl
@[simp] theorem applyReset_lastErr (s : State) : (applyReset s).lastErr = State.reset.lastErr := rfl
@[simp] theorem applyReset_errSeen (s : State) : (applyReset s).errSeen = State.reset.errSeen := rfl
@[simp] theorem applyReset_result (s : State) : (applyReset s).result = State.reset.result := rfl
@[simp] theorem applyReset_tblCount (s : State) : (applyReset s).tblCount = State.reset.tblCount := rfl
@[simp] theorem applyReset_cipher (s : State) : (applyReset s).cipher = State.reset.cipher := rfl
@[simp] theorem applyReset_rkey (s : State) : (applyReset s).rkey = State.reset.rkey := rfl
@[simp] theorem applyReset_sbox (s : State) : (applyReset s).sbox = State.reset.sbox := rfl
@[simp] theorem applyReset_inv (s : State) : (applyReset s).inv = State.reset.inv := rfl
@[simp] theorem applyReset_pending (s : State) : (applyReset s).pending = s.pending := rfl
@[simp] theorem applyReset_returned (s : State) : (applyReset s).returned = s.returned := rfl
end applyReset

section writeStatus
@[simp] theorem writeStatus_tv (v : Word) (s : State) :
    (writeStatus v s).tv =
      s.tv := by unfold writeStatus; split <;> rfl
@[simp] theorem writeStatus_oor (v : Word) (s : State) :
    (writeStatus v s).oor =
      s.oor := by unfold writeStatus; split <;> rfl
@[simp] theorem writeStatus_lastErr (v : Word) (s : State) :
    (writeStatus v s).lastErr =
      s.lastErr := by unfold writeStatus; split <;> rfl
@[simp] theorem writeStatus_errSeen (v : Word) (s : State) :
    (writeStatus v s).errSeen =
      (if v.getLsbD 8 then false else s.errSeen) := by unfold writeStatus; split <;> rfl
@[simp] theorem writeStatus_result (v : Word) (s : State) :
    (writeStatus v s).result =
      s.result := by unfold writeStatus; split <;> rfl
@[simp] theorem writeStatus_tblCount (v : Word) (s : State) :
    (writeStatus v s).tblCount =
      s.tblCount := by unfold writeStatus; split <;> rfl
@[simp] theorem writeStatus_cipher (v : Word) (s : State) :
    (writeStatus v s).cipher =
      s.cipher := by unfold writeStatus; split <;> rfl
@[simp] theorem writeStatus_rkey (v : Word) (s : State) :
    (writeStatus v s).rkey =
      s.rkey := by unfold writeStatus; split <;> rfl
@[simp] theorem writeStatus_sbox (v : Word) (s : State) :
    (writeStatus v s).sbox =
      s.sbox := by unfold writeStatus; split <;> rfl
@[simp] theorem writeStatus_inv (v : Word) (s : State) :
    (writeStatus v s).inv =
      s.inv := by unfold writeStatus; split <;> rfl
@[simp] theorem writeStatus_pending (v : Word) (s : State) :
    (writeStatus v s).pending =
      s.pending := by unfold writeStatus; split <;> rfl
@[simp] theorem writeStatus_returned (v : Word) (s : State) :
    (writeStatus v s).returned =
      s.returned := by unfold writeStatus; split <;> rfl
end writeStatus

end Sys2Proof.Machine
end

