-- ==== Sys2Proof/Laws/Tables.lean ====
section
/-! SUPPORT. The byte-indexed tables: reads after writes, the multiplicities of R113, and what building the inverse of
R114 leaves at each index. -/

namespace Sys2Proof.Machine

/-- Reading a table after writing it. -/
theorem tableGet_tablePut (t : Table) (i j v : Byte) :
    tableGet (tablePut t i v) j = if i = j then v else tableGet t j := by
  simp only [tableGet, tablePut, Vector.getElem_set, BitVec.toNat_inj]

/-- Two tables with the same entries are the same. -/
theorem table_ext {t u : Table} (h : ∀ x, tableGet t x = tableGet u x) : t = u := by
  apply Vector.ext
  intro i hi
  have := h (BitVec.ofNat 8 i)
  simpa [tableGet, Nat.mod_eq_of_lt hi] using this

@[simp] theorem mem_allBytes (x : Byte) : x ∈ allBytes := by
  simp only [allBytes, List.mem_map, List.mem_range]
  exact ⟨x.toNat, x.isLt, by simp⟩

theorem allBytes_nodup : allBytes.Nodup := by
  refine List.Nodup.map_on ?_ List.nodup_range
  intro x hx y hy h
  simp only [List.mem_range] at hx hy
  have := congrArg BitVec.toNat h
  simpa [Nat.mod_eq_of_lt hx, Nat.mod_eq_of_lt hy] using this

/-- A table's values in index order. -/
theorem toList_eq_map (t : Table) : t.toList = allBytes.map (tableGet t) := by
  apply List.ext_getElem
  · simp [allBytes]
  · intro i h1 h2
    have hi : i < 256 := by simpa using h1
    simp [allBytes, tableGet, Nat.mod_eq_of_lt hi]

/-- No value stands twice exactly when the table is injective (R113). -/
theorem hasDuplicate_eq_false_iff (t : Table) :
    hasDuplicate t = false ↔ ∀ x y, tableGet t x = tableGet t y → x = y := by
  have h1 : hasDuplicate t = false ↔ t.toList.Nodup := by
    rw [hasDuplicate, List.any_eq_false, List.nodup_iff_count_le_one]
    constructor
    · intro h v
      have := mt decide_eq_true (h v (mem_allBytes v))
      simp only [mark] at this
      omega
    · intro h v _ hd
      have := of_decide_eq_true hd
      have := h v
      simp only [mark] at *
      omega
  rw [h1, toList_eq_map]
  constructor
  · intro h x y hxy
    exact (List.inj_on_of_nodup_map h) (mem_allBytes x) (mem_allBytes y) hxy
  · intro h
    exact allBytes_nodup.map fun x y hxy => h x y hxy

/-- No value is missing exactly when the table is onto (R113). -/
theorem hasMissing_eq_false_iff (t : Table) : hasMissing t = false ↔ ∀ v, ∃ x, tableGet t x = v := by
  simp only [hasMissing, mark, toList_eq_map, List.any_eq_false, beq_iff_eq]
  constructor
  · intro h v
    have := List.count_pos_iff.1 (Nat.pos_of_ne_zero (h v (mem_allBytes v)))
    simpa using this
  · intro h v _ h0
    obtain ⟨x, hx⟩ := h v
    exact List.count_eq_zero.1 h0 (by simpa using ⟨x, hx⟩)

theorem tableGet_foldl_put (s : Table) (hs : ∀ x y, tableGet s x = tableGet s y → x = y) (x : Byte) :
    ∀ (l : List Byte) (t : Table), tableGet (l.foldl (fun t x => tablePut t (tableGet s x) x) t) (tableGet s x) =
      if x ∈ l then x else tableGet t (tableGet s x)
  | [], t => by simp
  | y :: l, t => by
    rw [List.foldl_cons, tableGet_foldl_put s hs x l, tableGet_tablePut]
    by_cases hxl : x ∈ l
    · simp [hxl]
    · by_cases hxy : y = x
      · simp [hxy]
      · have hne : tableGet s y ≠ tableGet s x := fun h => hxy (hs y x h)
        simp [hxl, hne, Ne.symm hxy]

/-- R114: for an injective table, the inverse table built over any old contents holds `x` at `SBOX[x]`. -/
theorem tableGet_buildInverse {s : Table} (hs : ∀ x y, tableGet s x = tableGet s y → x = y) (i : Table) (x : Byte) :
    tableGet (buildInverse s i) (tableGet s x) = x := by
  rw [buildInverse, tableGet_foldl_put s hs x allBytes i, if_pos (mem_allBytes x)]

/-- R114's check says that every index is undone. -/
theorem inverseHolds_iff (s i : Table) : inverseHolds s i = true ↔ ∀ x, tableGet i (tableGet s x) = x := by
  simp [inverseHolds]

/-- R111: the S-box entry at an index after a value is appended. -/
theorem tableGet_sbox_tableAppend (v : Word) (s : State) (x : Byte) :
    tableGet (tableAppend v s).sbox x =
      if v.toNat ≤ 255 ∧ s.tblCount.toNat = x.toNat then v.setWidth 8 else tableGet s.sbox x := by
  simp only [tableAppend_sbox]
  have hx : x.toNat < 256 := x.isLt
  by_cases hv : v.toNat ≤ 255
  · by_cases hc : s.tblCount.toNat < 256
    · simp [hv, hc, tableGet, Vector.getElem_setIfInBounds]
    · have : s.tblCount.toNat ≠ x.toNat := by omega
      simp [hv, hc, this]
  · simp [hv]

end Sys2Proof.Machine
end

