-- ==== Sys2Proof/Laws/Bus.lean ====
section
/-! SUPPORT. What each shared operation can answer, said once: a command that needs a table, TBLCOMMIT, an access, an
input. -/

namespace Sys2Proof.Machine

/-- What a command that completes answers. -/
theorem completed_eq (s : State) : completed s = .next (complete s) := rfl

/-- What a command that fails answers. -/
theorem failed_eq (e : ErrCode) (s : State) : failed e s = .next (raiseErr e s) := rfl

theorem withTable_valid {s : State} (done : State) (h : s.tv = true) : withTable done s = .next (complete done) := by simp [withTable, h, completed]

theorem withTable_invalid {s : State} (done : State) (h : s.tv = false) :
    withTable done s = .next (raiseErr .noTable s) := by simp [withTable, h, failed]

/-- All a command that needs a table can do. -/
theorem withTable_cases {done s t : State} (h : withTable done s = .next t) :
    (s.tv = true ∧ t = complete done) ∨ (s.tv = false ∧ t = raiseErr .noTable s) := by
  cases hv : s.tv
  · rw [withTable_invalid done hv] at h; injection h with h; exact .inr ⟨rfl, h.symm⟩
  · rw [withTable_valid done hv] at h; injection h with h; exact .inl ⟨rfl, h.symm⟩

/-- All that TBLCOMMIT can do when it answers a next state (R113, R114). -/
theorem execTblcommit_cases {s t : State} (h : execTblcommit s = .next t) :
    (s.tblCount ≠ 256#16 ∧ t = raiseErr .wrongLength s) ∨
    (s.tblCount = 256#16 ∧ s.oor = true ∧ t = raiseErr .outOfRange s) ∨
    (s.tblCount = 256#16 ∧ s.oor = false ∧ hasDuplicate s.sbox = true ∧ t = raiseErr .duplicateValue s) ∨
    (s.tblCount = 256#16 ∧ s.oor = false ∧ hasDuplicate s.sbox = false ∧ hasMissing s.sbox = false ∧
      t = complete (tableCommit (buildInverse s.sbox s.inv) s)) := by
  unfold execTblcommit at h
  by_cases hc : s.tblCount = 256#16
  · cases ho : s.oor
    · cases hd : hasDuplicate s.sbox
      · cases hm : hasMissing s.sbox
        · simp only [hc, ho, hd, hm, ne_eq, not_true_eq_false, if_false, Bool.false_eq_true] at h
          split at h
          · injection h with h; simp [hc, h.symm]
          · cases h
        · simp [hc, ho, hd, hm] at h
      · simp only [hc, ho, hd, ne_eq, not_true_eq_false, if_false, Bool.false_eq_true, if_true] at h
        injection h with h; simp [hc, h.symm]
    · simp only [hc, ho, ne_eq, not_true_eq_false, if_false, if_true] at h
      injection h with h; simp [hc, h.symm]
  · simp only [ne_eq, hc, not_false_eq_true, if_true] at h
    injection h with h; simp [hc, h.symm]

/-- TBLCOMMIT on a full load of a permutation (R114). -/
theorem execTblcommit_permutation {s : State} (hc : s.tblCount = 256#16) (ho : s.oor = false)
    (hinj : ∀ x y, tableGet s.sbox x = tableGet s.sbox y → x = y) (hsurj : ∀ v, ∃ x, tableGet s.sbox x = v) :
    execTblcommit s = .next (complete (tableCommit (buildInverse s.sbox s.inv) s)) := by
  have hd := (hasDuplicate_eq_false_iff s.sbox).2 hinj
  have hm := (hasMissing_eq_false_iff s.sbox).2 hsurj
  have hi := (inverseHolds_iff s.sbox _).2 (tableGet_buildInverse hinj s.inv)
  simp [execTblcommit, hc, ho, hd, hm, hi, completed]

/-- The register at a register's own offset. -/
@[simp] theorem regAt_offsetOf (r : Reg) : regAt (offsetOf r) = some r := by
  cases r with
  | state c => fin_cases c <;> rfl
  | rkey c => fin_cases c <;> rfl
  | _ => rfl

@[simp] theorem accessReg_offsetOf (r : Reg) : accessReg (offsetOf r) 32 = some r := by simp [accessReg]

/-- The only offset at which a register stands is its own. -/
theorem regAt_eq_some : ∀ (off : Offset) (r : Reg), regAt off = some r → off = offsetOf r := by
  intro off r h
  have key : ∀ off : Offset, (regAt off).all (fun r => off == offsetOf r) = true := by decide
  have := key off
  simpa [h] using this

/-- An access that selects a register is at that register's offset, 32 bits wide. -/
theorem accessReg_eq_some {off : Offset} {width : Nat} {r : Reg} (h : accessReg off width = some r) :
    off = offsetOf r ∧ width = 32 := by
  unfold accessReg at h
  split at h
  · rename_i hw
    exact ⟨regAt_eq_some off r h, hw⟩
  · cases h

@[simp] theorem perform_read_offsetOf (r : Reg) (s : State) :
    perform (.read (offsetOf r) 32) s = .next (pushReturned (readReg r s) s) := by simp [perform, busRead]

@[simp] theorem perform_write_offsetOf (r : Reg) (v : Word) (s : State) :
    perform (.write (offsetOf r) 32 v) s = writeReg r v s := by simp [perform, busWrite]

/-- All that a performed input can be. -/
theorem perform_cases {i : Input} {s t : State} (h : perform i s = .next t) :
    (∃ r, i = .read (offsetOf r) 32 ∧ t = pushReturned (readReg r s) s) ∨
    (∃ r v, i = .write (offsetOf r) 32 v ∧ writeReg r v s = .next t) ∨
    (i = .reset ∧ t = applyReset s) := by
  cases i with
  | read off width =>
    cases hr : accessReg off width with
    | none => simp [perform, busRead, hr] at h
    | some r =>
      obtain ⟨rfl, rfl⟩ := accessReg_eq_some hr
      simp only [perform_read_offsetOf] at h
      injection h with h
      exact .inl ⟨r, rfl, h.symm⟩
  | write off width v =>
    cases hr : accessReg off width with
    | none => simp [perform, busWrite, hr] at h
    | some r =>
      obtain ⟨rfl, rfl⟩ := accessReg_eq_some hr
      exact .inr (.inl ⟨r, v, rfl, by simpa using h⟩)
  | reset =>
    injection h with h
    exact .inr (.inr ⟨rfl, h.symm⟩)

/-- All that executing a command word can be (R100). -/
theorem execute_cases (w : Word) (s : State) :
    (∃ i, decode w = .ok i ∧ execute w s = exec i s) ∨
    (∃ e, decode w = .error e ∧ execute w s = .next (raiseErr .illegalCommand s)) := by
  cases hd : decode w with
  | ok i => exact .inl ⟨i, rfl, by simp [execute, hd]⟩
  | error e => exact .inr ⟨e, rfl, by simp [execute, hd, failed]⟩

/-- All that a step can be (R8). -/
theorem step_cases {s t : State} (h : step s = .next t) :
    (s.pending = [] ∧ t = s) ∨ (∃ i rest, s.pending = i :: rest ∧ perform i (takeInput rest s) = .next t) := by
  cases hp : s.pending with
  | nil => simp only [step, runInput, hp] at h; injection h with h; exact .inl ⟨rfl, h.symm⟩
  | cons i rest => exact .inr ⟨i, rest, rfl, by simpa only [step, runInput, hp] using h⟩

end Sys2Proof.Machine
end

