-- ==== Sys2Proof/Laws/Encode.lean ====
section
/-! SUPPORT. The fields of an encoded command word, as bits and as numbers (R70, R75). -/

namespace Sys2Proof

theorem toNat_append_byte {n : Nat} (x : BitVec n) (y : Byte) : (x ++ y).toNat = x.toNat * 2 ^ 8 + y.toNat := by
  rw [BitVec.toNat_append, ← Nat.shiftLeft_add_eq_or_of_lt y.isLt, Nat.shiftLeft_eq]

/-- The number of an encoded command (R70). -/
theorem toNat_encode (i : Instr) :
    (encode i).toNat = i.operandB.toNat * 2 ^ 16 + i.operandA.toNat * 2 ^ 8 + i.opcode.toNat := by
  have h : (encode i).toNat = (((0#8 : Byte).toNat * 2 ^ 8 + i.operandB.toNat) * 2 ^ 8 + i.operandA.toNat) * 2 ^ 8 +
      i.opcode.toNat := by
    simp only [encode, toNat_append_byte]
  rw [h]
  simp only [BitVec.toNat_ofNat, Nat.zero_mod]
  omega

theorem toNat_field (w : Word) (k : Nat) : (w.extractLsb' k 8).toNat = w.toNat / 2 ^ k % 256 := by
  simp [Nat.shiftRight_eq_div_pow]

@[simp] theorem opField_encode (i : Instr) : opField (encode i) = i.opcode := by
  apply BitVec.eq_of_toNat_eq
  have := i.opcode.isLt
  rw [opField, toNat_field, toNat_encode]
  omega

@[simp] theorem aField_encode (i : Instr) : aField (encode i) = i.operandA := by
  apply BitVec.eq_of_toNat_eq
  have := i.opcode.isLt
  have := i.operandA.isLt
  rw [aField, toNat_field, toNat_encode]
  omega

@[simp] theorem bField_encode (i : Instr) : bField (encode i) = i.operandB := by
  apply BitVec.eq_of_toNat_eq
  have := i.opcode.isLt
  have := i.operandA.isLt
  have := i.operandB.isLt
  rw [bField, toNat_field, toNat_encode]
  omega

@[simp] theorem rsvField_encode (i : Instr) : rsvField (encode i) = 0#8 := by
  apply BitVec.eq_of_toNat_eq
  have := i.opcode.isLt
  have := i.operandA.isLt
  have := i.operandB.isLt
  rw [rsvField, toNat_field, toNat_encode]
  simp only [BitVec.toNat_ofNat, Nat.zero_mod]
  omega

/-- A word is its four fields (R70). -/
theorem word_eq_fields (w : Word) : w = rsvField w ++ bField w ++ aField w ++ opField w := by
  apply BitVec.eq_of_toNat_eq
  have h : (rsvField w ++ bField w ++ aField w ++ opField w).toNat =
      (((rsvField w).toNat * 2 ^ 8 + (bField w).toNat) * 2 ^ 8 + (aField w).toNat) * 2 ^ 8 + (opField w).toNat := by
    simp only [toNat_append_byte]
  rw [h]
  simp only [rsvField, bField, aField, opField, toNat_field]
  have := w.isLt
  omega

/-- An encoded command is a legal word when its opcode is listed and its unused operands are 0 (R74). -/
theorem legalWord_encode_of (i : Instr) (h0 : opcodeListed i.opcode.toNat = true)
    (ha : opcodeTakesA i.opcode.toNat = true ∨ i.operandA = 0#8)
    (hb : opcodeTakesB i.opcode.toNat = true ∨ i.operandB = 0#8) : legalWord (encode i) = true := by
  have h1 := i.opcode.isLt
  have h2 := i.operandA.isLt
  have h3 := i.operandB.isLt
  have e0 : (encode i).toNat % 256 = i.opcode.toNat := by rw [toNat_encode]; omega
  have e1 : (encode i).toNat / 2 ^ 8 % 256 = i.operandA.toNat := by rw [toNat_encode]; omega
  have e2 : (encode i).toNat / 2 ^ 16 % 256 = i.operandB.toNat := by rw [toNat_encode]; omega
  have e3 : (encode i).toNat / 2 ^ 24 = 0 := by rw [toNat_encode]; omega
  simp only [legalWord, e0, e1, e2, e3, h0, Bool.and_eq_true, Bool.or_eq_true, beq_iff_eq]
  refine ⟨⟨⟨trivial, trivial⟩, ha.imp_right fun h => ?_⟩, hb.imp_right fun h => ?_⟩ <;> simp [h]

end Sys2Proof
end

