-- ==== Sys2Proof/Laws/Exec.lean ====
section
/-! SUPPORT. What `exec` answers for each command, over the shared operations: later proofs rewrite with these and unfold
no meaning. -/

namespace Sys2Proof.Machine

theorem exec_nop (s : State) : exec .nop s = .next (complete s) := rfl

theorem exec_gfmul (a b : Byte) (s : State) : exec (.gfmul a b) s = .next (complete (writeResult (gmul a b) s)) := rfl

theorem exec_gfinv_zero (s : State) : exec (.gfinv 0x00#8) s = .next (raiseErr .invZero s) := rfl

theorem exec_gfinv_ne {a : Byte} (h : a ≠ 0x00#8) (s : State) :
    exec (.gfinv a) s = .next (complete (writeResult (ginv a) s)) := if_neg h

theorem exec_subbytes (s : State) :
    exec .subbytes s = withTable (writeCipher (subBytes s.sbox s.cipher) s) s := rfl

theorem exec_invsubbytes (s : State) :
    exec .invsubbytes s = withTable (writeCipher (subBytes s.inv s.cipher) s) s := rfl

theorem exec_shiftrows (s : State) : exec .shiftrows s = .next (complete (writeCipher (shiftRows s.cipher) s)) := rfl

theorem exec_invshiftrows (s : State) :
    exec .invshiftrows s = .next (complete (writeCipher (invShiftRows s.cipher) s)) := rfl

theorem exec_mixcolumns (s : State) :
    exec .mixcolumns s = .next (complete (writeCipher (mixColumns s.cipher) s)) := rfl

theorem exec_invmixcolumns (s : State) :
    exec .invmixcolumns s = .next (complete (writeCipher (invMixColumns s.cipher) s)) := rfl

theorem exec_addroundkey (s : State) :
    exec .addroundkey s = .next (complete (writeCipher (addRoundKey s.rkey s.cipher) s)) := rfl

theorem exec_encround (s : State) :
    exec .encround s = withTable (writeCipher (encRound s.sbox s.rkey s.cipher) s) s := rfl

theorem exec_decround (s : State) :
    exec .decround s = withTable (writeCipher (decRound s.inv s.rkey s.cipher) s) s := rfl

theorem exec_tblclr (s : State) : exec .tblclr s = .next (complete (tableClear s)) := rfl

theorem exec_tblcommit_length {s : State} (h : s.tblCount ≠ 256#16) :
    exec .tblcommit s = .next (raiseErr .wrongLength s) := if_pos h

theorem exec_tblcommit_range {s : State} (h : s.tblCount = 256#16) (ho : s.oor = true) :
    exec .tblcommit s = .next (raiseErr .outOfRange s) := by
  simp [exec, execTblcommit, h, ho, failed]

theorem exec_tblcommit_duplicate {s : State} (h : s.tblCount = 256#16) (ho : s.oor = false)
    (hd : hasDuplicate s.sbox = true) : exec .tblcommit s = .next (raiseErr .duplicateValue s) := by
  simp [exec, execTblcommit, h, ho, hd, failed]

theorem exec_tblcommit_permutation {s : State} (h : s.tblCount = 256#16) (ho : s.oor = false)
    (hinj : ∀ x y, tableGet s.sbox x = tableGet s.sbox y → x = y) (hsurj : ∀ v, ∃ x, tableGet s.sbox x = v) :
    exec .tblcommit s = .next (complete (tableCommit (buildInverse s.sbox s.inv) s)) :=
  execTblcommit_permutation h ho hinj hsurj

theorem exec_sboxrd (a : Byte) (s : State) :
    exec (.sboxrd a) s = withTable (writeResult (tableGet s.sbox a) s) s := rfl

theorem exec_invrd (a : Byte) (s : State) :
    exec (.invrd a) s = withTable (writeResult (tableGet s.inv a) s) s := rfl

end Sys2Proof.Machine
end

