-- ==== Sys2Proof/Laws/Field.lean ====
section
/-! SUPPORT. What the search of `ginv` finds (R133), and the coefficients of the two matrices as numbers (R144). -/

namespace Sys2Proof.Machine

/-- When some byte is an inverse of `a`, `ginv a` is one. -/
theorem gmul_ginv_of_exists {a : Byte} (h : ∃ x, gmul a x = 0x01#8) : gmul a (ginv a) = 0x01#8 := by
  obtain ⟨x, hx⟩ := h
  have hs : (allBytes.find? fun x => gmul a x == 0x01#8).isSome := by
    rw [List.find?_isSome]
    exact ⟨x, mem_allBytes x, by simp [hx]⟩
  obtain ⟨y, hy⟩ := Option.isSome_iff_exists.1 hs
  have := List.find?_some hy
  simpa [ginv, hy] using this

/-- The loop of R131, one bit of `b` at a time, from the least significant. -/
theorem gmul_eq (a b : Byte) :
    gmul a b = (gmulStep b (gmulStep b (gmulStep b (gmulStep b (gmulStep b (gmulStep b (gmulStep b (gmulStep b
      (0x00#8, a) 0) 1) 2) 3) 4) 5) 6) 7).1 := rfl

/-- The rows of M (R144). -/
theorem circulant_mixRow :
    (fun r k => circulant mixRow r k) =
      fun r k => (#v[#v[0x02#8, 0x03#8, 0x01#8, 0x01#8], #v[0x01#8, 0x02#8, 0x03#8, 0x01#8],
        #v[0x01#8, 0x01#8, 0x02#8, 0x03#8], #v[0x03#8, 0x01#8, 0x01#8, 0x02#8]] : Vector (Vector Byte 4) 4)[r][k] := by
  decide

/-- The rows of M' (R144). -/
theorem circulant_invMixRow :
    (fun r k => circulant invMixRow r k) =
      fun r k => (#v[#v[0x0E#8, 0x0B#8, 0x0D#8, 0x09#8], #v[0x09#8, 0x0E#8, 0x0B#8, 0x0D#8],
        #v[0x0D#8, 0x09#8, 0x0E#8, 0x0B#8], #v[0x0B#8, 0x0D#8, 0x09#8, 0x0E#8]] : Vector (Vector Byte 4) 4)[r][k] := by
  decide

end Sys2Proof.Machine
end

