-- ==== Sys2Proof/Laws/Matrix.lean ====
section
/-! SUPPORT. The 4x4 byte matrix (R24): what byte a built matrix holds, and that a matrix is its bytes. -/

namespace Sys2Proof.Machine

theorem lane_getLsbD (w : Word) (j : Fin 4) (i : Nat) : (lane w j).getLsbD i = (decide (i < 8) && w.getLsbD (8 * j.val + i)) := by
  simp [lane]

@[simp] theorem lane_packWord (b : Fin 4 → Byte) (j : Fin 4) : lane (packWord (b 0) (b 1) (b 2) (b 3)) j = b j := by
  apply BitVec.eq_of_getLsbD_eq
  intro i hi
  have hj := j.isLt
  have h : j = 0 ∨ j = 1 ∨ j = 2 ∨ j = 3 := by omega
  simp only [lane_getLsbD, packWord, BitVec.getLsbD_append, hi, decide_true, Bool.true_and]
  rcases h with rfl | rfl | rfl | rfl
  · have h0 : 8 * ((0 : Fin 4) : Nat) + i < 8 := by simpa using hi
    rw [if_pos h0]; simp
  · have h0 : ¬ 8 * ((1 : Fin 4) : Nat) + i < 8 := by simp
    have h1 : 8 * ((1 : Fin 4) : Nat) + i - 8 = i := by simp
    rw [if_neg h0, h1, if_pos hi]
  · have h2 : 8 * ((2 : Fin 4) : Nat) + i = 16 + i := by simp
    rw [h2, if_neg (by omega), if_neg (by omega), if_pos (by omega)]
    congr 1; omega
  · have h3 : 8 * ((3 : Fin 4) : Nat) + i = 24 + i := by rfl
    rw [h3, if_neg (by omega), if_neg (by omega), if_neg (by omega)]
    congr 1; omega

@[simp] theorem packWord_lane (w : Word) : packWord (lane w 0) (lane w 1) (lane w 2) (lane w 3) = w := by
  apply BitVec.eq_of_getLsbD_eq
  intro i hi
  simp only [packWord, lane, BitVec.getLsbD_append, BitVec.getLsbD_extractLsb', Fin.val_zero, Fin.val_one, Fin.val_two]
  have h3 : ((3 : Fin 4) : Nat) = 3 := rfl
  simp only [h3]
  split_ifs with h0 h1 h2
  all_goals first
    | (simp [h0]; done)
    | (have : 8 * 1 + (i - 8) = i := by omega
       simp [this]; omega)
    | (have : 8 * 2 + (i - 8 - 8) = i := by omega
       simp [this]; omega)
    | (have : 8 * 3 + (i - 8 - 8 - 8) = i := by omega
       simp [this]; omega)

/-- The byte a built matrix holds. -/
@[simp] theorem matrixByte_ofBytes (f : Fin 4 → Fin 4 → Byte) (r c : Fin 4) : matrixByte (ofBytes f) r c = f r c := by
  have h : (ofBytes f)[c] = packWord (f 0 c) (f 1 c) (f 2 c) (f 3 c) := by fin_cases c <;> rfl
  simp only [matrixByte, h]
  exact lane_packWord (fun r => f r c) r

/-- A matrix is what its bytes are. -/
@[simp] theorem ofBytes_matrixByte (m : Columns) : ofBytes (matrixByte m) = m := by
  apply Vector.ext
  intro i hi
  have h : i = 0 ∨ i = 1 ∨ i = 2 ∨ i = 3 := by omega
  rcases h with rfl | rfl | rfl | rfl <;> exact packWord_lane _

/-- Two matrices with the same bytes are the same. -/
theorem columns_ext {m n : Columns} (h : ∀ r c, matrixByte m r c = matrixByte n r c) : m = n := by
  rw [← ofBytes_matrixByte m, ← ofBytes_matrixByte n]
  exact congrArg ofBytes (funext fun r => funext fun c => h r c)

@[simp] theorem matrixByte_subBytes (t : Table) (m : Columns) (r c : Fin 4) :
    matrixByte (subBytes t m) r c = tableGet t (matrixByte m r c) := matrixByte_ofBytes _ r c

@[simp] theorem matrixByte_shiftRows (m : Columns) (r c : Fin 4) :
    matrixByte (shiftRows m) r c = matrixByte m r (c + r) := matrixByte_ofBytes _ r c

@[simp] theorem matrixByte_invShiftRows (m : Columns) (r c : Fin 4) :
    matrixByte (invShiftRows m) r c = matrixByte m r (c - r) := matrixByte_ofBytes _ r c

@[simp] theorem matrixByte_addRoundKey (k m : Columns) (r c : Fin 4) :
    matrixByte (addRoundKey k m) r c = matrixByte m r c ^^^ matrixByte k r c := matrixByte_ofBytes _ r c

@[simp] theorem matrixByte_mixWith (row : Vector Byte 4) (m : Columns) (r c : Fin 4) :
    matrixByte (mixWith row m) r c =
      gmul (circulant row r 0) (matrixByte m 0 c) ^^^ gmul (circulant row r 1) (matrixByte m 1 c)
        ^^^ gmul (circulant row r 2) (matrixByte m 2 c) ^^^ gmul (circulant row r 3) (matrixByte m 3 c) :=
  matrixByte_ofBytes _ r c

/-- The block that a block's columns hold is the block. -/
@[simp] theorem toBlock_ofBlock (b : Block) : toBlock (ofBlock b) = b := by
  apply Vector.ext
  intro i hi
  have h : 4 * (i / 4) + i % 4 = i := Nat.div_add_mod i 4
  simp [toBlock, ofBlock, h]

/-- The columns of the block that columns hold are the columns. -/
@[simp] theorem ofBlock_toBlock (m : Columns) : ofBlock (toBlock m) = m := by
  apply columns_ext
  intro r c
  have hr : (4 * c.val + r.val) % 4 = r.val := by omega
  have hc : (4 * c.val + r.val) / 4 = c.val := by omega
  simp only [ofBlock, toBlock, matrixByte_ofBytes, Vector.getElem_ofFn, hr, hc]

end Sys2Proof.Machine
end

