-- ==== Sys2Proof/Laws/PerInstr.lean ====
section
/-! SUPPORT. Laws of every instruction as syntax, one lemma per constructor. -/

namespace Sys2Proof.Laws

/-- The word of a command is legal by R74, and its fields are the opcode of R72, the operands and zero (R70, R75). -/
def EncodeLegal.Statement (i : Instr) : Prop :=
  legalWord (encode i) = true ∧ opField (encode i) = i.opcode ∧ aField (encode i) = i.operandA ∧
    bField (encode i) = i.operandB ∧ rsvField (encode i) = 0#8

theorem encodeLegal_of (i : Instr) (h0 : opcodeListed i.opcode.toNat = true)
    (ha : opcodeTakesA i.opcode.toNat = true ∨ i.operandA = 0#8)
    (hb : opcodeTakesB i.opcode.toNat = true ∨ i.operandB = 0#8) : EncodeLegal.Statement i :=
  ⟨legalWord_encode_of i h0 ha hb, opField_encode i, aField_encode i, bField_encode i, rsvField_encode i⟩

theorem EncodeLegal.nop : EncodeLegal.Statement .nop := encodeLegal_of _ rfl (.inr rfl) (.inr rfl)

theorem EncodeLegal.gfmul (a b : Byte) : EncodeLegal.Statement (.gfmul a b) := encodeLegal_of _ rfl (.inl rfl) (.inl rfl)

theorem EncodeLegal.gfinv (a : Byte) : EncodeLegal.Statement (.gfinv a) := encodeLegal_of _ rfl (.inl rfl) (.inr rfl)

theorem EncodeLegal.subbytes : EncodeLegal.Statement .subbytes := encodeLegal_of _ rfl (.inr rfl) (.inr rfl)

theorem EncodeLegal.invsubbytes : EncodeLegal.Statement .invsubbytes := encodeLegal_of _ rfl (.inr rfl) (.inr rfl)

theorem EncodeLegal.shiftrows : EncodeLegal.Statement .shiftrows := encodeLegal_of _ rfl (.inr rfl) (.inr rfl)

theorem EncodeLegal.invshiftrows : EncodeLegal.Statement .invshiftrows := encodeLegal_of _ rfl (.inr rfl) (.inr rfl)

theorem EncodeLegal.mixcolumns : EncodeLegal.Statement .mixcolumns := encodeLegal_of _ rfl (.inr rfl) (.inr rfl)

theorem EncodeLegal.invmixcolumns : EncodeLegal.Statement .invmixcolumns := encodeLegal_of _ rfl (.inr rfl) (.inr rfl)

theorem EncodeLegal.addroundkey : EncodeLegal.Statement .addroundkey := encodeLegal_of _ rfl (.inr rfl) (.inr rfl)

theorem EncodeLegal.encround : EncodeLegal.Statement .encround := encodeLegal_of _ rfl (.inr rfl) (.inr rfl)

theorem EncodeLegal.decround : EncodeLegal.Statement .decround := encodeLegal_of _ rfl (.inr rfl) (.inr rfl)

theorem EncodeLegal.tblclr : EncodeLegal.Statement .tblclr := encodeLegal_of _ rfl (.inr rfl) (.inr rfl)

theorem EncodeLegal.tblcommit : EncodeLegal.Statement .tblcommit := encodeLegal_of _ rfl (.inr rfl) (.inr rfl)

theorem EncodeLegal.sboxrd (a : Byte) : EncodeLegal.Statement (.sboxrd a) := encodeLegal_of _ rfl (.inl rfl) (.inr rfl)

theorem EncodeLegal.invrd (a : Byte) : EncodeLegal.Statement (.invrd a) := encodeLegal_of _ rfl (.inl rfl) (.inr rfl)

end Sys2Proof.Laws
end

