-- ==== Sys2Proof/Laws/Procedures.lean ====
section
/-! SUPPORT. Sequences of inputs, the host's reads and writes, and the window in the platform's address map. -/

namespace Sys2Proof.Machine

@[simp] theorem performAll_nil (s : State) : performAll [] s = .next s := rfl

theorem performAll_cons_next {i : Input} {s t : State} (h : perform i s = .next t) (rest : List Input) :
    performAll (i :: rest) s = performAll rest t := by simp [performAll, h]

/-- Performing a sequence is performing its parts in turn. -/
theorem performAll_append_next {xs : List Input} {s t : State} (h : performAll xs s = .next t) (ys : List Input) :
    performAll (xs ++ ys) s = performAll ys t := by
  induction xs generalizing s with
  | nil => injection h with h; subst h; rfl
  | cons i xs ih =>
    cases hi : perform i s with
    | next u =>
      rw [performAll_cons_next hi] at h
      rw [List.cons_append, performAll_cons_next hi]
      exact ih h
    | fault f => simp [performAll, hi] at h
    | refused r => simp [performAll, hi] at h

@[simp] theorem perform_wr (r : Reg) (v : Word) (s : State) : perform (wr r v) s = writeReg r v s :=
  perform_write_offsetOf r v s

@[simp] theorem perform_rd (r : Reg) (s : State) : perform (rd r) s = .next (pushReturned (readReg r s) s) :=
  perform_read_offsetOf r s

/-- A command input is the execution of its word (R100). -/
theorem perform_cmd (i : Instr) (s : State) : perform (cmd i) s = execute (encode i) s :=
  perform_write_offsetOf .cmd (encode i) s

/-- A command whose word decodes to it is performed by its meaning. -/
theorem perform_cmd_of_decode {i : Instr} (h : decode (encode i) = .ok i) (s : State) : perform (cmd i) s = exec i s := by
  rw [perform_cmd, execute, h]

/-- A host read answers what the register reads as. -/
@[simp] theorem hostRead_eq (r : Reg) (s : State) : hostRead r s = .ok (pushReturned (readReg r s) s, readReg r s) := by
  simp [hostRead, busRead]

/-- The offset of an address in the window (R50). -/
@[simp] theorem windowOffset_add (base : Nat) (off : Offset) : windowOffset base (base + off.toNat) = some off := by
  have := off.isLt
  simp [windowOffset]
  omega

/-- There is none outside (R51). -/
theorem windowOffset_eq_none_iff (base addr : Nat) :
    windowOffset base addr = none ↔ addr < base ∨ base + 0x3F < addr := by
  unfold windowOffset
  split <;> simp <;> omega

end Sys2Proof.Machine
end

