-- ==== Sys2Proof/Tests/Slice0.lean ====
section
/-! SUPPORT. Tests: the well-formedness checks refuse what they should; every command's word, written out from R70 and R72,
decodes to it; one step of each command against the vectors of spec/95_test_vectors.md; and, for each statement with
hypotheses, a state and operands that meet them. -/

namespace Sys2Proof.Tests

open Sys2Proof Sys2Proof.Machine

/-! ### Ill-formed words and accesses (R53, R74; the words of 95_test_vectors.md §2.7) -/

theorem test_wellformed_refuses_undefined_opcode : legalWord 0x00000017#32 = false := by decide
theorem test_wellformed_refuses_nonzero_reserved : legalWord 0x01000000#32 = false := by decide
theorem test_wellformed_refuses_nonzero_a : legalWord 0x00000110#32 = false := by decide
theorem test_wellformed_refuses_nonzero_b : legalWord 0x00010002#32 = false := by decide
theorem test_wellformed_accepts_gfmul : legalWord 0x00FFFF01#32 = true := by decide
theorem test_wellformed_refuses_misaligned : (Input.read 0x02#6 32).wellFormed = false := by decide
theorem test_wellformed_refuses_byte_write : (Input.write 0x20#6 8 0#32).wellFormed = false := by decide
theorem test_wellformed_refuses_reserved_offset : (Input.read 0x18#6 32).wellFormed = false := by decide

/-! ### Every command's word (R70, R72) -/

theorem test_decode_nop : decode 0x00000000#32 = .ok .nop := rfl
theorem test_decode_gfmul : decode 0x00835701#32 = .ok (.gfmul 0x57#8 0x83#8) := rfl
theorem test_decode_gfinv : decode 0x00005302#32 = .ok (.gfinv 0x53#8) := rfl
theorem test_decode_subbytes : decode 0x00000010#32 = .ok .subbytes := rfl
theorem test_decode_invsubbytes : decode 0x00000011#32 = .ok .invsubbytes := rfl
theorem test_decode_shiftrows : decode 0x00000012#32 = .ok .shiftrows := rfl
theorem test_decode_invshiftrows : decode 0x00000013#32 = .ok .invshiftrows := rfl
theorem test_decode_mixcolumns : decode 0x00000014#32 = .ok .mixcolumns := rfl
theorem test_decode_invmixcolumns : decode 0x00000015#32 = .ok .invmixcolumns := rfl
theorem test_decode_addroundkey : decode 0x00000016#32 = .ok .addroundkey := rfl
theorem test_decode_encround : decode 0x00000018#32 = .ok .encround := rfl
theorem test_decode_decround : decode 0x00000019#32 = .ok .decround := rfl
theorem test_decode_tblclr : decode 0x00000020#32 = .ok .tblclr := rfl
theorem test_decode_tblcommit : decode 0x00000021#32 = .ok .tblcommit := rfl
theorem test_decode_sboxrd : decode 0x0000FF22#32 = .ok (.sboxrd 0xFF#8) := rfl
theorem test_decode_invrd : decode 0x00008023#32 = .ok (.invrd 0x80#8) := rfl
theorem test_decode_refuses_undefined_opcode : decode 0x00000017#32 = .error .undefinedOpcode := rfl
theorem test_decodeTableWord_sboxrd : decodeTableWord 32 0x00000022 = some (.sboxrd 0x00#8) := rfl

/-! ### States -/

/-- The table `SBOX[x] = (x + 1) mod 256` of 95_test_vectors.md. -/
def incTable : Table := Vector.ofFn fun i => BitVec.ofNat 8 (i.val + 1)

/-- Its inverse, `INV[y] = (y - 1) mod 256`. -/
def decTable : Table := Vector.ofFn fun i => BitVec.ofNat 8 (i.val + 255)

/-- 95_test_vectors.md §2.6: the table committed, state 00 01 .. 0f, round key bytes 0x0F. -/
def ready : State :=
  { State.reset with
    tv := true, tblCount := 256#16, sbox := incTable, inv := decTable
    cipher := #v[0x03020100#32, 0x07060504#32, 0x0B0A0908#32, 0x0F0E0D0C#32]
    rkey := Vector.replicate 4 0x0F0F0F0F#32 }

/-- The same after a failed command and without a valid table. -/
def unready : State := { ready with tv := false, lastErr := 6#4, errSeen := true, result := 0x5A#8 }

/-- The state of an outcome, when there is one. -/
def after : Host.Outcome State Fault Refusal → Option State
  | .next s => some s
  | .fault _ => none
  | .refused _ => none

/-- STATE0..3 and STATUS after one command. -/
def seen (i : Instr) (s : State) : Option (List Word × Word) :=
  (after (exec i s)).map fun t => (t.cipher.toList, statusWord t)

/-- RESULT and STATUS after one command. -/
def seenResult (i : Instr) (s : State) : Option (Word × Word) :=
  (after (exec i s)).map fun t => (readReg .result t, statusWord t)

@[simp] theorem tableGet_incTable (x : Byte) : tableGet incTable x = x + 0x01#8 := by
  apply BitVec.eq_of_toNat_eq
  simp [tableGet, incTable]

@[simp] theorem tableGet_decTable (x : Byte) : tableGet decTable x = x + 0xFF#8 := by
  apply BitVec.eq_of_toNat_eq
  simp [tableGet, decTable]

theorem incTable_injective (x y : Byte) (h : tableGet incTable x = tableGet incTable y) : x = y := by
  simpa using h

theorem tables_inverse : tablesInverse ready.sbox ready.inv := by
  constructor <;> intro x <;> simp [ready, BitVec.add_assoc]

/-! ### One step of each command (95_test_vectors.md §2 and §3) -/

/-- §2.7: NOP clears LASTERR and leaves ERRSEEN. -/
theorem test_nop_clears_lasterr : (seenResult .nop unready) = some (0x0000005A#32, 0x00000100#32) := by decide +kernel

/-- P1 line 1. -/
theorem test_gfmul_57_83 : seenResult (.gfmul 0x57#8 0x83#8) unready = some (0x000000C1#32, 0x00000100#32) := by
  decide +kernel

/-- §2.1: the reduction of a carry. -/
theorem test_gfmul_reduces : gmul 0x80#8 0x02#8 = 0x1B#8 ∧ gmul 0xFF#8 0xFF#8 = 0x13#8 := by decide +kernel

/-- §2.2. -/
theorem test_gfinv_02 : seenResult (.gfinv 0x02#8) State.reset = some (0x0000008D#32, 0x00000000#32) := by decide +kernel

/-- P1 lines 7 to 9: InvZero, RESULT kept. -/
theorem test_gfinv_zero : seenResult (.gfinv 0x00#8) { State.reset with result := 0x01#8 } =
    some (0x00000001#32, 0x00000160#32) := by decide +kernel

/-- §2.5. -/
theorem test_subbytes : seen .subbytes ready =
    some ([0x04030201#32, 0x08070605#32, 0x0C0B0A09#32, 0x100F0E0D#32], 0x00000001#32) := by decide +kernel

/-- §2.5: NoTable, STATE unchanged. -/
theorem test_subbytes_without_table : seen .subbytes { ready with tv := false } =
    some (ready.cipher.toList, 0x00000170#32) := by decide +kernel

/-- §2.5. -/
theorem test_invsubbytes : seen .invsubbytes
      { ready with cipher := #v[0x04030201#32, 0x08070605#32, 0x0C0B0A09#32, 0x100F0E0D#32] } =
    some (ready.cipher.toList, 0x00000001#32) := by decide +kernel

/-- §2.5. -/
theorem test_shiftrows : seen .shiftrows ready =
    some ([0x0F0A0500#32, 0x030E0904#32, 0x07020D08#32, 0x0B06010C#32], 0x00000001#32) := by decide +kernel

/-- §2.5. -/
theorem test_invshiftrows : seen .invshiftrows ready =
    some ([0x070A0D00#32, 0x0B0E0104#32, 0x0F020508#32, 0x0306090C#32], 0x00000001#32) := by decide +kernel

/-- §2.4, rows 1, 2, 5 and 6: one column each. -/
theorem test_mixcolumns : seen .mixcolumns
      { unready with cipher := #v[0x455313DB#32, 0x5C220AF2#32, 0xD5D4D4D4#32, 0x4C31262D#32] } =
    some ([0xBCA14D8E#32, 0x9D58DC9F#32, 0xD6D7D5D5#32, 0xF8BD7E4D#32], 0x00000100#32) := by decide +kernel

/-- §2.4, rows 1, 2, 5 and 6, the last column. -/
theorem test_invmixcolumns : seen .invmixcolumns
      { unready with cipher := #v[0x455313DB#32, 0x5C220AF2#32, 0xD5D4D4D4#32, 0x4C31262D#32] } =
    some ([0x551DA432#32, 0x8269C3AE#32, 0xDADFD9DD#32, 0xD65050A0#32], 0x00000100#32) := by decide +kernel

/-- §2.5. -/
theorem test_addroundkey : seen .addroundkey { unready with rkey := Vector.replicate 4 0xFFFFFFFF#32 } =
    some ([0xFCFDFEFF#32, 0xF8F9FAFB#32, 0xF4F5F6F7#32, 0xF0F1F2F3#32], 0x00000100#32) := by decide +kernel

/-- §2.6. -/
theorem test_encround : seen .encround ready =
    some ([0x212E0F1C#32, 0x0D120B10#32, 0x09161704#32, 0x051A0318#32], 0x00000001#32) := by decide +kernel

/-- §2.6. -/
theorem test_decround : seen .decround
      { ready with cipher := #v[0x212E0F1C#32, 0x0D120B10#32, 0x09161704#32, 0x051A0318#32] } =
    some (ready.cipher.toList, 0x00000001#32) := by decide +kernel

/-- §2.3 T9: OOR and TBL_COUNT cleared, ERRSEEN still set. -/
theorem test_tblclr : (after (exec .tblclr { ready with oor := true, lastErr := 2#4, errSeen := true })).map
    (fun t => (statusWord t, readReg .tblCount t)) = some (0x00000100#32, 0x00000000#32) := by decide +kernel

/-- §2.3 T1: WrongLength at reset. -/
theorem test_tblcommit_wrong_length : seen .tblcommit State.reset =
    some ([0#32, 0#32, 0#32, 0#32], 0x00000110#32) := by decide +kernel

/-- §2.3 T10: 256 equal values. -/
theorem test_tblcommit_duplicate : (after (exec .tblcommit
      { State.reset with tblCount := 256#16, sbox := Vector.replicate 256 0xFF#8 })).map statusWord =
    some 0x00000130#32 := by decide +kernel

/-- P2 lines 6 and 7. -/
theorem test_sboxrd_ff : seenResult (.sboxrd 0xFF#8) ready = some (0x00000000#32, 0x00000001#32) := by decide +kernel

/-- §2.3, the lookups at the end. -/
theorem test_invrd_80 : seenResult (.invrd 0x80#8) ready = some (0x0000007F#32, 0x00000001#32) := by decide +kernel

/-! ### The host's port (95_test_vectors.md §2.3, §2.7) -/

/-- §2.7: an undefined opcode from reset, through a whole step. -/
theorem test_step_illegal_word : (after (step (State.reset.withFetchWord 32 0x00000003))).map statusWord =
    some 0x00000180#32 := by decide +kernel

/-- §2.7: the W1C bit. -/
theorem test_write_status : (after (perform (wr .status 0x00000100#32)
    { State.reset with lastErr := 8#4, errSeen := true })).map statusWord = some 0x00000080#32 := by decide +kernel

/-- §2.7: `WR STATE1, 0xAABBCCDD`, then s[0][1] and s[3][1]. -/
theorem test_write_state1 : (after (perform (wr (.state 1) 0xAABBCCDD#32) ready)).map
    (fun t => (t.cipherByte 0 1, t.cipherByte 3 1)) = some (0xDD#8, 0xAA#8) := by decide +kernel

/-- §2.3 T8: a software -1. -/
theorem test_append_out_of_range : (after (perform (wr .tblData 0xFFFFFFFF#32) State.reset)).map
    (fun t => (statusWord t, readReg .tblCount t, tableGet t.sbox 0x00#8)) =
      some (0x00000002#32, 0x00000001#32, 0x00#8) := by decide +kernel

/-- §2.7: a byte-wide write is refused. -/
theorem test_byte_write_refused : perform (.write 0x20#6 8 0xFF#32) ready = .fault .busError := rfl

/-- §2.8: L = 5 pads with eleven 0x0B bytes. -/
theorem test_pad_five : pad (List.replicate 5 0x41#8) = List.replicate 5 0x41#8 ++ List.replicate 11 0x0B#8 := by
  decide +kernel

/-- §2.8: a wrong padding byte. -/
theorem test_unpad_wrong : (unpad (List.replicate 14 0x00#8 ++ [0x03#8, 0x02#8])).isOk = false := by decide +kernel

/-! ### Witnesses: for each statement with hypotheses, one for each of its clauses, values that meet them -/

theorem witness_EncodeInvertsDecode : decode 0x00FFFF01#32 = .ok (.gfmul 0xFF#8 0xFF#8) := rfl

/-- Both ends of each range of undefined opcodes (R74), and each field that must be 0. -/
theorem witness_IllegalWordsOnlyReportErrorEight :
    [0x03#32, 0x0F#32, 0x17#32, 0x1A#32, 0x1F#32, 0x24#32, 0xFF#32, 0x01000000#32, 0x00000110#32, 0x00010002#32].all
      (fun w => legalWord w == false) = true := by decide

theorem witness_StepRunsDecodedCommand :
    ({ ready with pending := [.write 0x00#6 32 0x00000010#32, .reset] } : State).pending =
      .write 0x00#6 32 0x00000010#32 :: [.reset] ∧ decode 0x00000010#32 = .ok .subbytes := ⟨rfl, rfl⟩

theorem witness_StepPerformsOldestInput :
    ({ ready with pending := [rd .status, .reset] } : State).pending = rd .status :: [.reset] ∧ ready.pending = [] :=
  ⟨rfl, rfl⟩

theorem witness_RunPerformsInputsInOrder :
    let s : State := { ready with pending := [wr (.state 0) 0x05#32, rd (.state 0), .reset] }
    s.pending = [wr (.state 0) 0x05#32, rd (.state 0)] ++ [.reset] ∧
      ∃ t, performAll [wr (.state 0) 0x05#32, rd (.state 0)] { s with pending := [.reset] } = .next t := ⟨rfl, _, rfl⟩

theorem witness_RegisterAccessesAreIdempotent :
    (∃ t, perform (.read 0x04#6 32) ready = .next t) ∧ (∃ t, perform (.write 0x04#6 32 0x100#32) unready = .next t) ∧
      (∃ t, perform (.write 0x20#6 32 0x05#32) ready = .next t) ∧ ∃ t, perform (.write 0x3C#6 32 0x05#32) ready = .next t :=
  ⟨⟨_, rfl⟩, ⟨_, rfl⟩, ⟨_, rfl⟩, ⟨_, rfl⟩⟩

theorem incTable_onto (v : Byte) : ∃ x, tableGet ready.sbox x = v :=
  ⟨v + 0xFF#8, by simp [ready, BitVec.add_assoc]⟩

/-- TBLCOMMIT completes on the loaded table of P2. -/
theorem commit_ready : exec .tblcommit ready =
    .next (complete (tableCommit (buildInverse ready.sbox ready.inv) ready)) :=
  exec_tblcommit_permutation rfl rfl incTable_injective incTable_onto

theorem witness_RepeatableCommandsAreIdempotent :
    (∃ t, exec .nop unready = .next t) ∧ (∃ t, exec .tblclr ready = .next t) ∧ (∃ t, exec .tblcommit ready = .next t) ∧
      (∃ t, exec (.gfmul 0x57#8 0x83#8) ready = .next t) ∧ (∃ t, exec (.gfinv 0x00#8) ready = .next t) ∧
      (∃ t, exec (.sboxrd 0xFF#8) ready = .next t) ∧ ∃ t, exec (.invrd 0x00#8) unready = .next t :=
  ⟨⟨_, rfl⟩, ⟨_, rfl⟩, ⟨_, commit_ready⟩, ⟨_, rfl⟩, ⟨_, rfl⟩, ⟨_, rfl⟩, ⟨_, rfl⟩⟩

theorem witness_EarlierErrorsDoNotMatter :
    (∃ t, exec .nop unready = .next t ∧ t.lastErr = 0#4) ∧ ∃ t, exec (.gfinv 0x00#8) ready = .next t ∧ t.lastErr ≠ 0#4 :=
  ⟨⟨_, rfl, rfl⟩, ⟨_, rfl, by decide⟩⟩

theorem witness_ErrseenStaysUntilCleared :
    (∃ t, perform (.write 0x04#6 32 0x100#32) unready = .next t ∧ unready.errSeen = true ∧ t.errSeen = false) ∧
      (∃ t, perform .reset unready = .next t ∧ unready.errSeen = true ∧ t.errSeen = false) ∧
      (∃ t, exec (.gfinv 0x00#8) ready = .next t ∧ t.lastErr ≠ 0#4) ∧ ∃ t, exec .nop unready = .next t ∧ t.lastErr = 0#4 :=
  ⟨⟨_, rfl, rfl, rfl⟩, ⟨_, rfl, rfl, rfl⟩, ⟨_, rfl, by decide⟩, ⟨_, rfl, rfl⟩⟩

theorem witness_LasterrChangesOnlyByCommands :
    (∃ t, perform (cmd .nop) unready = .next t ∧ t.lastErr ≠ unready.lastErr) ∧
      ∃ t, perform .reset unready = .next t ∧ t.lastErr ≠ unready.lastErr :=
  ⟨⟨_, rfl, by decide⟩, ⟨_, rfl, by decide⟩⟩

theorem witness_ValidBitChangesOnlyAsStated :
    (∃ s t, perform (cmd .tblcommit) s = .next t ∧ s.tv = false ∧ t.tv = true) ∧
      (∃ t, perform (cmd .tblclr) ready = .next t ∧ ready.tv = true ∧ t.tv = false) ∧
      (∃ t, perform (.write 0x0C#6 32 0x00#32) ready = .next t ∧ ready.tv = true ∧ t.tv = false) ∧
      ∃ t, perform .reset ready = .next t ∧ ready.tv = true ∧ t.tv = false :=
  ⟨⟨{ ready with tv := false }, _, exec_tblcommit_permutation (s := { ready with tv := false }) rfl rfl
      incTable_injective incTable_onto, rfl, rfl⟩, ⟨_, rfl, rfl, rfl⟩, ⟨_, rfl, rfl, rfl⟩, ⟨_, rfl, rfl, rfl⟩⟩

theorem witness_OutOfRangeLatch :
    (∃ t, perform (.write 0x0C#6 32 0x100#32) ready = .next t ∧ ready.oor = false ∧ t.oor = true) ∧
      (∃ s t, perform (cmd .tblclr) s = .next t ∧ s.oor = true ∧ t.oor = false) ∧
      (∃ s t, perform .reset s = .next t ∧ s.oor = true ∧ t.oor = false) ∧
      ∃ s : State, s.tblCount = 256#16 ∧ s.oor = true :=
  ⟨⟨_, rfl, rfl, by decide⟩, ⟨{ unready with oor := true }, _, rfl, rfl, rfl⟩,
    ⟨{ unready with oor := true }, _, rfl, rfl, rfl⟩, ⟨{ unready with oor := true }, rfl, rfl⟩⟩

theorem witness_CommandsChangeOnlyTheirTargets :
    (∃ t, exec .nop unready = .next t) ∧ (∀ a b, Instr.nop ≠ .gfmul a b) ∧
      (∀ a, Instr.nop ≠ .gfinv a ∧ Instr.nop ≠ .sboxrd a ∧ Instr.nop ≠ .invrd a) ∧ Instr.nop ≠ .tblclr ∧
      Instr.nop ≠ .tblcommit ∧ Instr.nop ≠ .subbytes ∧ Instr.nop ≠ .invsubbytes ∧ Instr.nop ≠ .shiftrows ∧
      Instr.nop ≠ .invshiftrows ∧ Instr.nop ≠ .mixcolumns ∧ Instr.nop ≠ .invmixcolumns ∧ Instr.nop ≠ .addroundkey ∧
      Instr.nop ≠ .encround ∧ Instr.nop ≠ .decround := ⟨⟨_, rfl⟩, by simp⟩

theorem witness_TableCommandsNeedValidTable : unready.tv = false ∧ Instr.sboxrd 0xFF#8 = .sboxrd 0xFF#8 := ⟨rfl, rfl⟩

theorem witness_GfmulWritesProduct : (0x00#8 : Byte) = 0x00#8 ∧ (0x01#8 : Byte) = 0x01#8 := ⟨rfl, rfl⟩

theorem witness_GfinvWritesInverse : (0x00#8 : Byte) = 0x00#8 ∧ (0x01#8 : Byte) ≠ 0x00#8 ∧ (0xFF#8 : Byte) ≠ 0x00#8 := by
  decide

theorem witness_GinvIsUniqueInverse : (0xFF#8 : Byte) ≠ 0x00#8 := by decide

/-- Also for the identity table, which leaves every byte. -/
theorem witness_SubbytesSubstitutesEveryByte :
    ready.tv = true ∧ unready.tv = false ∧ ∃ s : State, s.tv = true ∧ ∀ x, tableGet s.sbox x = x :=
  ⟨rfl, rfl, { ready with sbox := Vector.ofFn fun i => BitVec.ofNat 8 i.val }, rfl, fun x => by simp [tableGet]⟩

theorem witness_InvsubbytesUndoesSubbytes :
    ready.tv = true ∧ unready.tv = false ∧ tablesInverse ready.sbox ready.inv := ⟨rfl, rfl, tables_inverse⟩

theorem witness_ShiftrowsRotatesLeft :
    ∃ s : State, ∀ r c d : Fin 4, s.cipherByte r c = s.cipherByte r d :=
  ⟨{ ready with cipher := Vector.replicate 4 0x44332211#32 }, by decide⟩

theorem witness_MixcolumnsMultipliesByM :
    ∃ s : State, s.cipherByte 0 0 = s.cipherByte 1 0 ∧ s.cipherByte 1 0 = s.cipherByte 2 0 ∧
      s.cipherByte 2 0 = s.cipherByte 3 0 :=
  ⟨{ ready with cipher := Vector.replicate 4 0xC6C6C6C6#32 }, by decide⟩

theorem witness_AddroundkeyXorsTheKey : ∃ s : State, ∀ c : Fin 4, s.rkey[c] = 0#32 :=
  ⟨{ ready with rkey := Vector.replicate 4 0#32 }, by decide⟩

theorem witness_EncroundAppliesFourTransforms : ready.tv = true ∧ unready.tv = false := ⟨rfl, rfl⟩

theorem witness_DecroundUndoesEncround :
    ready.tv = true ∧ unready.tv = false ∧ tablesInverse ready.sbox ready.inv := ⟨rfl, rfl, tables_inverse⟩

/-- The counts on both sides of 256, the range check, and a table with a value at two indices. -/
theorem witness_TblcommitChecksInOrder :
    (255#16 ≠ 256#16 ∧ 257#16 ≠ 256#16) ∧
      (∃ s : State, s.tblCount = 256#16 ∧ s.oor = true) ∧
      ∃ s : State, s.tblCount = 256#16 ∧ s.oor = false ∧ ∃ x y, x ≠ y ∧ tableGet s.sbox x = tableGet s.sbox y :=
  ⟨by decide, ⟨{ ready with oor := true }, rfl, rfl⟩,
    { ready with sbox := Vector.replicate 256 0xFF#8 }, rfl, rfl, 0x04#8, 0x05#8, by decide, by simp only [tableGet, Vector.getElem_replicate]⟩

theorem witness_TblcommitBuildsInverse : ready.tblCount = 256#16 ∧ ready.oor = false ∧
    ∀ x y, tableGet ready.sbox x = tableGet ready.sbox y → x = y := ⟨rfl, rfl, incTable_injective⟩

theorem witness_LookupsReadTheTables :
    ready.tv = true ∧ unready.tv = false ∧ tablesInverse ready.sbox ready.inv := ⟨rfl, rfl, tables_inverse⟩

theorem witness_LoadTableValidatesSequence_length :
    (List.replicate 255 0#32).length ≠ 256 ∧ (List.replicate 257 0#32).length ≠ 256 := by
  simp only [List.length_replicate]; decide

theorem witness_LoadTableValidatesSequence_range :
    (List.replicate 256 0x100#32).length = 256 ∧ ∃ v ∈ List.replicate 256 0x100#32, 255 < v.toNat :=
  ⟨List.length_replicate, 0x100#32, List.mem_replicate.2 ⟨by decide, rfl⟩, by decide⟩

theorem witness_LoadTableValidatesSequence_duplicate :
    (List.replicate 256 0xFF#32).length = 256 ∧ (∀ v ∈ List.replicate 256 0xFF#32, v.toNat ≤ 255) ∧
      ¬ (List.replicate 256 0xFF#32).Nodup :=
  ⟨List.length_replicate, fun v hv => by rw [List.eq_of_mem_replicate hv]; decide,
    fun h => absurd (List.nodup_replicate.1 h) (by decide)⟩

/-- The identity table, from 0 to 255. -/
theorem witness_LoadTableValidatesSequence_permutation :
    let values : List Word := (List.range 256).map (BitVec.ofNat 32)
    values.length = 256 ∧ (∀ v ∈ values, v.toNat ≤ 255) ∧ values.Nodup := by
  refine ⟨by simp, ?_, ?_⟩
  · intro v hv
    obtain ⟨n, hn, rfl⟩ := List.mem_map.1 hv
    have := List.mem_range.1 hn
    simp only [BitVec.toNat_ofNat]
    omega
  · refine List.Nodup.map_on ?_ List.nodup_range
    intro x hx y hy h
    have hx := List.mem_range.1 hx
    have hy := List.mem_range.1 hy
    have := congrArg BitVec.toNat h
    simp only [BitVec.toNat_ofNat] at this
    omega

theorem ready_inv (inputs : List Input) : ({ ready with pending := inputs } : State).Inv :=
  ⟨fun _ => tables_inverse, fun _ => ⟨rfl, rfl⟩, Nat.zero_le 8, (by decide : (0#4 : BitVec 4) ≠ 4#4),
    (by decide : (0#4 : BitVec 4) ≠ 5#4)⟩

theorem witness_StepKeepsInvariant :
    ∃ s t : State, s.Inv ∧ step s = .next t ∧ s.pending = [cmd .encround] :=
  ⟨{ ready with pending := [cmd .encround] }, _, ready_inv _, rfl, rfl⟩

/-- Two states with different tables halfway through a load, before a step that goes on and before one that faults. -/
theorem witness_StepKeepsAgreement :
    (∃ s s' t : State, s.Agree s' ∧ s.sbox ≠ s'.sbox ∧ step s = .next t ∧ s.pending = [wr .tblData 0x07#32]) ∧
      ∃ s s' : State, s.Agree s' ∧ step s = .fault .busError :=
  ⟨⟨{ State.reset with pending := [wr .tblData 0x07#32] },
      { State.reset with pending := [wr .tblData 0x07#32], sbox := incTable }, _,
      ⟨rfl, by simp [State.reset], fun _ x hx => absurd hx (by simp [State.reset])⟩,
      fun h => absurd (congrArg (fun t => tableGet t 0x00#8) h) (by simp [State.reset, tableGet, incTable]), rfl, rfl⟩,
    ⟨{ State.reset with pending := [.read 0x02#6 32] }, { State.reset with pending := [.read 0x02#6 32], inv := decTable },
      ⟨rfl, by simp [State.reset], fun _ _ _ => rfl⟩, rfl⟩⟩

theorem witness_ResetTablesUnobservable :
    (∃ t : State, Host.Core.run Sys2Proof.core 2
      ({ State.reset with pending := [cmd (.sboxrd 0x05#8), rd .status] } : State) = .next t) ∧
      Host.Core.run Sys2Proof.core 1 ({ State.reset with pending := [.read 0x14#6 32] } : State) = .fault .busError :=
  ⟨⟨_, rfl⟩, rfl⟩

theorem witness_UnpadAcceptsExactlyPadding :
    unpad (List.replicate 16 0x10#8) = .ok [] ∧ ∀ message, unpad [] ≠ .ok message :=
  ⟨rfl, fun _ h => by simp [unpad] at h⟩

theorem witness_HostProceduresRefuse :
    ([] : List Byte) = [] ∧ [0x01#8] ≠ [] ∧ (List.replicate 15 0x00#8).length % 16 ≠ 0 ∧
      (List.replicate 17 0x00#8).length % 16 ≠ 0 := by decide

theorem witness_BlockRoundTrip : ready.tv = true ∧ tablesInverse ready.sbox ready.inv := ⟨rfl, tables_inverse⟩

theorem witness_MessageRoundTrip : [0x0F#8] ≠ [] ∧ ready.tv = true ∧ tablesInverse ready.sbox ready.inv :=
  ⟨by decide, rfl, tables_inverse⟩

theorem witness_EmptyPlaintextIsOneBlock : [0x0F#8] ≠ [] := by decide

end Sys2Proof.Tests
end

section
/-! The step's two equations, one per case of the pending inputs, and what the claims of 00_scope.md take from them. -/

namespace Sys2Proof.Machine

/-- With an input pending, a step is that input performed on the state without it (R8, R59; log 1). -/
theorem step_of_pending_cons {s : State} {i : Input} {rest : List Input} (h : s.pending = i :: rest) :
    step s = perform i (takeInput rest s) := by
  simp only [step, runInput, h]

/-- The block takes no step of its own (R8; log 3). -/
theorem step_of_pending_nil {s : State} (h : s.pending = []) : step s = .next s := by
  simp only [step, runInput, h]

/-- Settles O7: the pending inputs are empty or begin with the oldest, and each case is one equation of the step. -/
theorem stepPerformsOldestInput : Obligations.StepPerformsOldestInput :=
  ⟨fun _ _ _ h => step_of_pending_cons h, fun _ h => step_of_pending_nil h⟩

end Sys2Proof.Machine
end

section
/-! The decoder read backwards: a word that decodes is the word of the command it decodes to (R73, R75). -/

namespace Sys2Proof

/-- A byte field that a mask keeps whole is what the masked word holds there. -/
theorem extractLsb'_of_masked {w m p : Word} (h : w &&& m = p) {k : Nat} (hm : m.extractLsb' k 8 = 0xFF#8) :
    w.extractLsb' k 8 = p.extractLsb' k 8 := by
  rw [← h, BitVec.extractLsb'_and, hm]
  exact BitVec.and_allOnes.symm

/-- A word is an encoded command when its four fields are the command's (R70, R75). -/
theorem encode_eq_of_fields {w : Word} {i : Instr} (hop : opField w = i.opcode) (ha : aField w = i.operandA)
    (hb : bField w = i.operandB) (hrsv : rsvField w = 0#8) : encode i = w := by
  rw [word_eq_fields w, hop, ha, hb, hrsv, encode]

/-- A row of the opcode map builds, from each word it selects, the command encoded as that word (R72, R75). -/
def BuildsItsWords (r : Row) : Prop := ∀ w : Word, r.selects w = true → encode (r.build (aField w) (bField w)) = w

theorem plainRow_buildsItsWords {op : Word} {i : Instr} (h : encode i = op) : BuildsItsWords (plainRow op i) := by
  intro w hsel
  have hw : w &&& BitVec.allOnes 32 = op := beq_iff_eq.1 hsel
  rw [BitVec.and_allOnes] at hw
  exact h.trans hw.symm

theorem indexRow_buildsItsWords {op : Word} {f : Byte → Instr} (hop : ∀ a, (f a).opcode = opField op)
    (ha : ∀ a, (f a).operandA = a) (hb : ∀ a, (f a).operandB = bField op) (hrsv : rsvField op = 0#8) :
    BuildsItsWords (indexRow op f) := by
  intro w hsel
  have hw : w &&& 0xFFFF00FF#32 = op := beq_iff_eq.1 hsel
  exact encode_eq_of_fields ((extractLsb'_of_masked hw rfl).trans (hop _).symm) (ha _).symm
    ((extractLsb'_of_masked hw rfl).trans (hb _).symm) ((extractLsb'_of_masked hw rfl).trans hrsv)

theorem gfmulRow_buildsItsWords :
    BuildsItsWords { mask := 0xFF0000FF#32, pattern := 0x00000001#32, build := .gfmul } := by
  intro w hsel
  have hw : w &&& 0xFF0000FF#32 = 0x00000001#32 := beq_iff_eq.1 hsel
  exact encode_eq_of_fields (extractLsb'_of_masked hw rfl) rfl rfl (extractLsb'_of_masked hw rfl)

/-- Every row of R72, in its order: twelve without operands, GFMUL, and the three with the operand A. -/
theorem rows_buildItsWords : ∀ r ∈ rows, BuildsItsWords r := by
  simp only [rows, List.forall_mem_cons]
  exact ⟨plainRow_buildsItsWords rfl, gfmulRow_buildsItsWords,
    indexRow_buildsItsWords (fun _ => rfl) (fun _ => rfl) (fun _ => rfl) rfl,
    plainRow_buildsItsWords rfl, plainRow_buildsItsWords rfl, plainRow_buildsItsWords rfl,
    plainRow_buildsItsWords rfl, plainRow_buildsItsWords rfl, plainRow_buildsItsWords rfl,
    plainRow_buildsItsWords rfl, plainRow_buildsItsWords rfl, plainRow_buildsItsWords rfl,
    plainRow_buildsItsWords rfl, plainRow_buildsItsWords rfl,
    indexRow_buildsItsWords (fun _ => rfl) (fun _ => rfl) (fun _ => rfl) rfl,
    indexRow_buildsItsWords (fun _ => rfl) (fun _ => rfl) (fun _ => rfl) rfl, List.forall_mem_nil _⟩

/-- R73: a word decodes to what one of the rows it selects builds. -/
theorem exists_row_of_decode {w : Word} {i : Instr} (h : decode w = .ok i) :
    ∃ r ∈ rows, r.selects w = true ∧ r.build (aField w) (bField w) = i := by
  unfold decode at h
  split at h
  · rename_i r hr
    injection h with h
    exact ⟨r, List.mem_of_find?_eq_some hr, List.find?_some (p := fun r : Row => r.selects w) hr, h⟩
  · cases h

/-- A word that decodes to a command is that command's word. -/
theorem encode_of_decode {w : Word} {i : Instr} (h : decode w = .ok i) : encode i = w := by
  obtain ⟨r, hr, hsel, rfl⟩ := exists_row_of_decode h
  exact rows_buildItsWords r hr w hsel

/-- A command word with no bits beyond its 32 is the word itself (R62). -/
@[simp] theorem tableWord_toNat (w : Word) : tableWord 32 w.toNat = w := by
  rw [tableWord, Nat.mod_eq_of_lt w.isLt, BitVec.ofNat_toNat, BitVec.setWidth_eq]

end Sys2Proof
end

section
/-! All that a command, and all that a host input, can do to the state: two closed lists of named updates, said once. The
claims about single fields below are case analyses over them. -/

namespace Sys2Proof.Machine

/-- The commands that write RESULT when they complete (R22). -/
def WritesResult (i : Instr) : Prop :=
  (∃ a b, i = .gfmul a b) ∨ ∃ a, i = .gfinv a ∨ i = .sboxrd a ∨ i = .invrd a

/-- The commands that write STATE0..STATE3 when they complete (R24). -/
def cipherCommands : List Instr :=
  [.subbytes, .invsubbytes, .shiftrows, .invshiftrows, .mixcolumns, .invmixcolumns, .addroundkey, .encround, .decround]

/-- `CommandEffect s i t`: the command `i`, executed in `s`, may leave `t`. -/
inductive CommandEffect (s : State) : Instr → State → Prop
  /-- R102. -/
  | fails (i : Instr) (e : ErrCode) : CommandEffect s i (raiseErr e s)
  /-- R103. -/
  | nop : CommandEffect s .nop (complete s)
  /-- R115, R116, R132, R134. -/
  | result {i : Instr} (h : WritesResult i) (v : Byte) : CommandEffect s i (complete (writeResult v s))
  /-- R140 to R147, R160, R161. -/
  | cipher {i : Instr} (h : i ∈ cipherCommands) (m : Columns) : CommandEffect s i (complete (writeCipher m s))
  /-- R112. -/
  | clear : CommandEffect s .tblclr (complete (tableClear s))
  /-- R113, R114. -/
  | commit (hcount : s.tblCount = 256#16) (hoor : s.oor = false) (hdup : hasDuplicate s.sbox = false)
      (hmiss : hasMissing s.sbox = false) :
      CommandEffect s .tblcommit (complete (tableCommit (buildInverse s.sbox s.inv) s))

/-- A command that needs a table fails, or has the effect it has with one. -/
theorem CommandEffect.of_withTable {i : Instr} {done s t : State} (h : withTable done s = .next t)
    (hdone : CommandEffect s i (complete done)) : CommandEffect s i t := by
  obtain ⟨-, rfl⟩ | ⟨-, rfl⟩ := withTable_cases h
  · exact hdone
  · exact .fails i .noTable

/-- Every command has one of the listed effects. -/
theorem commandEffect_of_exec {i : Instr} {s t : State} (h : exec i s = .next t) : CommandEffect s i t := by
  cases i with
  | nop => cases h; exact .nop
  | gfmul a b => cases h; exact .result (.inl ⟨a, b, rfl⟩) _
  | gfinv a =>
    by_cases ha : a = 0x00#8
    · subst ha; cases h; exact .fails _ .invZero
    · rw [exec_gfinv_ne ha] at h; cases h; exact .result (.inr ⟨a, .inl rfl⟩) _
  | subbytes => exact .of_withTable h (.cipher (by decide) _)
  | invsubbytes => exact .of_withTable h (.cipher (by decide) _)
  | shiftrows => cases h; exact .cipher (by decide) _
  | invshiftrows => cases h; exact .cipher (by decide) _
  | mixcolumns => cases h; exact .cipher (by decide) _
  | invmixcolumns => cases h; exact .cipher (by decide) _
  | addroundkey => cases h; exact .cipher (by decide) _
  | encround => exact .of_withTable h (.cipher (by decide) _)
  | decround => exact .of_withTable h (.cipher (by decide) _)
  | tblclr => cases h; exact .clear
  | tblcommit =>
    obtain ⟨-, rfl⟩ | ⟨-, -, rfl⟩ | ⟨-, -, -, rfl⟩ | ⟨hcount, hoor, hdup, hmiss, rfl⟩ := execTblcommit_cases h
    · exact .fails _ .wrongLength
    · exact .fails _ .outOfRange
    · exact .fails _ .duplicateValue
    · exact .commit hcount hoor hdup hmiss
  | sboxrd a => exact .of_withTable h (.result (.inr ⟨a, .inr (.inl rfl)⟩) _)
  | invrd a => exact .of_withTable h (.result (.inr ⟨a, .inr (.inr rfl)⟩) _)

/-- `InputEffect s i t`: the host input `i`, performed in `s`, may leave `t`. -/
inductive InputEffect (s : State) : Input → State → Prop
  /-- R54. -/
  | read (r : Reg) : InputEffect s (rd r) (pushReturned (readReg r s) s)
  /-- R104. -/
  | illegal (w : Word) : InputEffect s (wr .cmd w) (raiseErr .illegalCommand s)
  /-- R100. -/
  | command {i : Instr} {t : State} (h : CommandEffect s i t) : InputEffect s (cmd i) t
  /-- R179. -/
  | status (v : Word) : InputEffect s (wr .status v) (writeStatus v s)
  /-- R55: RESULT ignores writes. -/
  | result (v : Word) : InputEffect s (wr .result v) s
  /-- R111. -/
  | append (v : Word) : InputEffect s (wr .tblData v) (tableAppend v s)
  /-- R55: TBL_COUNT ignores writes. -/
  | tblCount (v : Word) : InputEffect s (wr .tblCount v) s
  /-- R55. -/
  | stateReg (c : Fin 4) (v : Word) : InputEffect s (wr (.state c) v) (writeStateReg c v s)
  /-- R55. -/
  | keyReg (c : Fin 4) (v : Word) : InputEffect s (wr (.rkey c) v) (writeKeyReg c v s)
  /-- R190. -/
  | reset : InputEffect s .reset (applyReset s)

/-- A write to CMD is an illegal word or a command's own word (R100, R104). -/
theorem inputEffect_of_execute {w : Word} {s t : State} (h : execute w s = .next t) :
    InputEffect s (wr .cmd w) t := by
  obtain ⟨i, hi, hexec⟩ | ⟨e, -, hexec⟩ := execute_cases w s
  · rw [hexec] at h
    rw [← encode_of_decode hi]
    exact .command (commandEffect_of_exec h)
  · rw [hexec] at h
    cases h
    exact .illegal w

/-- Every input that is not refused has one of the listed effects. -/
theorem inputEffect_of_perform {i : Input} {s t : State} (h : perform i s = .next t) : InputEffect s i t := by
  obtain ⟨r, rfl, rfl⟩ | ⟨r, v, rfl, hw⟩ | ⟨rfl, rfl⟩ := perform_cases h
  · exact .read r
  · cases r with
    | cmd => exact inputEffect_of_execute hw
    | status => cases hw; exact .status v
    | result => cases hw; exact .result v
    | tblData => cases hw; exact .append v
    | tblCount => cases hw; exact .tblCount v
    | state c => cases hw; exact .stateReg c v
    | rkey c => cases hw; exact .keyReg c v
  · exact .reset

end Sys2Proof.Machine
end

section
/-! What each command leaves unchanged, field by field (10_state.md). -/

namespace Sys2Proof.Machine

namespace CommandEffect

variable {i : Instr} {s t : State}

theorem rkey_eq (h : CommandEffect s i t) : t.rkey = s.rkey := by cases h <;> rfl

theorem sbox_eq (h : CommandEffect s i t) : t.sbox = s.sbox := by cases h <;> rfl

theorem pending_eq (h : CommandEffect s i t) : t.pending = s.pending := by cases h <;> rfl

theorem returned_eq (h : CommandEffect s i t) : t.returned = s.returned := by cases h <;> rfl

theorem result_eq (h : CommandEffect s i t) (hi : ¬ WritesResult i) : t.result = s.result := by
  cases h with
  | result hw _ => exact absurd hw hi
  | _ => rfl

theorem cipher_eq (h : CommandEffect s i t) (hi : i ∉ cipherCommands) : t.cipher = s.cipher := by
  cases h with
  | cipher hw _ => exact absurd hw hi
  | _ => rfl

theorem inv_eq (h : CommandEffect s i t) (hi : i ≠ .tblcommit) : t.inv = s.inv := by
  cases h with
  | commit => exact absurd rfl hi
  | _ => rfl

theorem oor_eq (h : CommandEffect s i t) (hi : i ≠ .tblclr) : t.oor = s.oor := by
  cases h with
  | clear => exact absurd rfl hi
  | _ => rfl

theorem tblCount_eq (h : CommandEffect s i t) (hi : i ≠ .tblclr) : t.tblCount = s.tblCount := by
  cases h with
  | clear => exact absurd rfl hi
  | _ => rfl

theorem tv_eq (h : CommandEffect s i t) (hclr : i ≠ .tblclr) (hcommit : i ≠ .tblcommit) : t.tv = s.tv := by
  cases h with
  | clear => exact absurd rfl hclr
  | commit => exact absurd rfl hcommit
  | _ => rfl

end CommandEffect

/-- Settles O22: each clause is one field of the closed list of effects. -/
theorem commandsChangeOnlyTheirTargets : Obligations.CommandsChangeOnlyTheirTargets := by
  intro i s t h
  have he := commandEffect_of_exec h
  refine ⟨he.rkey_eq, he.sbox_eq, he.pending_eq, he.returned_eq, ?result, he.inv_eq,
    fun hclr => ⟨he.oor_eq hclr, he.tblCount_eq hclr⟩, he.tv_eq, ?cipher⟩
  case result =>
    intro hgfmul hother
    refine he.result_eq ?_
    rintro (⟨a, b, rfl⟩ | ⟨a, ha⟩)
    · exact hgfmul a b rfl
    · obtain ⟨hgfinv, hsboxrd, hinvrd⟩ := hother a
      simp only [hgfinv, hsboxrd, hinvrd, or_self] at ha
  case cipher =>
    intro h1 h2 h3 h4 h5 h6 h7 h8 h9
    exact he.cipher_eq (by simp [cipherCommands, h1, h2, h3, h4, h5, h6, h7, h8, h9])

end Sys2Proof.Machine
end

section
/-! The fields of STATUS under every host input: what changes LASTERR (R28), TV (R29) and OOR (R30). -/

namespace Sys2Proof.Machine

/-- A performed TBLCLR is the clearing of the load (R112). -/
theorem perform_cmd_tblclr (s : State) : perform (cmd .tblclr) s = .next (complete (tableClear s)) :=
  perform_cmd_of_decode rfl s

/-- A performed TBL_DATA write is the append (R111). -/
theorem perform_write_tblData (v : Word) (s : State) : perform (.write 0x0C#6 32 v) s = .next (tableAppend v s) :=
  perform_write_offsetOf .tblData v s

/-- The reset input answers the state of reset (R190). -/
theorem perform_reset (s : State) : perform .reset s = .next (applyReset s) := rfl

/-- Settles O19: of the listed effects, only the illegal word, the commands and reset write LASTERR. -/
theorem lasterrChangesOnlyByCommands : Obligations.LasterrChangesOnlyByCommands := by
  intro i s t h hne
  cases inputEffect_of_perform h with
  | illegal w => exact .inl ⟨w, rfl⟩
  | command hc => exact .inl ⟨_, rfl⟩
  | reset => exact .inr rfl
  | status v => exact absurd (writeStatus_lastErr v s) hne
  | _ => exact absurd rfl hne

namespace CommandEffect

variable {i : Instr} {s t : State}

theorem eq_tblcommit_of_tv_rises (h : CommandEffect s i t) (hs : s.tv = false) (ht : t.tv = true) :
    i = .tblcommit := by
  cases h with
  | commit => rfl
  | clear => cases ht
  | _ => exact absurd (hs.symm.trans ht) Bool.false_ne_true

theorem eq_tblclr_of_tv_falls (h : CommandEffect s i t) (hs : s.tv = true) (ht : t.tv = false) : i = .tblclr := by
  cases h with
  | clear => rfl
  | commit => cases ht
  | _ => exact absurd (ht.symm.trans hs) Bool.false_ne_true

theorem eq_tblclr_of_oor_ne (h : CommandEffect s i t) (hne : t.oor ≠ s.oor) : i = .tblclr :=
  Classical.byContradiction fun hi => hne (h.oor_eq hi)

end CommandEffect

/-- Settles O20: of the listed effects, only a commit raises TV, and only a clear, an append and reset lower it. -/
theorem validBitChangesOnlyAsStated : Obligations.ValidBitChangesOnlyAsStated := by
  refine ⟨fun i s t h hs ht => ?rises, fun i s t h hs ht => ?falls, fun i s hi => ?cleared⟩
  case rises =>
    cases inputEffect_of_perform h with
    | command hc => rw [hc.eq_tblcommit_of_tv_rises hs ht]
    | append v => cases ht
    | reset => cases ht
    | status v => exact absurd (hs.symm.trans ((writeStatus_tv v s).symm.trans ht)) Bool.false_ne_true
    | _ => exact absurd (hs.symm.trans ht) Bool.false_ne_true
  case falls =>
    cases inputEffect_of_perform h with
    | command hc => exact .inl (congrArg cmd (hc.eq_tblclr_of_tv_falls hs ht))
    | append v => exact .inr (.inl ⟨v, rfl⟩)
    | reset => exact .inr (.inr rfl)
    | status v => exact absurd (ht.symm.trans ((writeStatus_tv v s).trans hs)) Bool.false_ne_true
    | _ => exact absurd (ht.symm.trans hs) Bool.false_ne_true
  case cleared =>
    obtain rfl | ⟨v, rfl⟩ | rfl := hi
    · exact ⟨_, perform_cmd_tblclr s, rfl⟩
    · exact ⟨_, perform_write_tblData v s, rfl⟩
    · exact ⟨_, perform_reset s, rfl⟩

/-- All that can change OOR: a TBL_DATA write above 255, which leaves it 1, and TBLCLR and reset, which leave it 0. -/
theorem oor_change_cases {i : Input} {s t : State} (h : perform i s = .next t) (hne : t.oor ≠ s.oor) :
    (∃ v : Word, 255 < v.toNat ∧ i = .write 0x0C#6 32 v ∧ t.oor = true) ∨
    ((i = cmd .tblclr ∨ i = .reset) ∧ t.oor = false) := by
  cases inputEffect_of_perform h with
  | command hc =>
    obtain rfl := hc.eq_tblclr_of_oor_ne hne
    rw [perform_cmd_tblclr] at h
    cases h
    exact .inr ⟨.inl rfl, rfl⟩
  | append v =>
    by_cases hv : 255 < v.toNat
    · exact .inl ⟨v, hv, rfl, if_pos hv⟩
    · exact absurd (if_neg hv) hne
  | reset => exact .inr ⟨.inr rfl, rfl⟩
  | status v => exact absurd (writeStatus_oor v s) hne
  | _ => exact absurd rfl hne

/-- Settles O21: the two clauses of what changes OOR are the two cases of `oor_change_cases`, told apart by its new value. -/
theorem outOfRangeLatch : Obligations.OutOfRangeLatch := by
  refine ⟨fun v s hv => ⟨_, perform_write_tblData v s, if_pos hv⟩, fun i s hi => ?cleared,
    fun i s t h hs ht => ?rises, fun i s t h hs ht => ?falls, fun s hcount hoor => exec_tblcommit_range hcount hoor⟩
  case cleared =>
    obtain rfl | rfl := hi
    · exact ⟨_, perform_cmd_tblclr s, rfl⟩
    · exact ⟨_, perform_reset s, rfl⟩
  case rises =>
    obtain ⟨v, hv, hi, -⟩ | ⟨-, hf⟩ := oor_change_cases h (by simp [hs, ht])
    · exact ⟨v, hv, hi⟩
    · exact absurd (hf.symm.trans ht) Bool.false_ne_true
  case falls =>
    obtain ⟨v, -, -, hf⟩ | ⟨hi, -⟩ := oor_change_cases h (by simp [hs, ht])
    · exact absurd (ht.symm.trans hf) Bool.false_ne_true
    · exact hi

end Sys2Proof.Machine
end

section
/-! The invariant of tables, load and status (R26, R28, R29, R117): three ways to keep it, then every effect by one of
them. -/

namespace Sys2Proof.Machine

/-- The table that R114 builds for a permutation undoes it and is undone by it. -/
theorem tablesInverse_buildInverse {sbox : Table} (hdup : hasDuplicate sbox = false) (hmiss : hasMissing sbox = false)
    (inv : Table) : tablesInverse sbox (buildInverse sbox inv) := by
  have hinj := (hasDuplicate_eq_false_iff sbox).1 hdup
  refine ⟨tableGet_buildInverse hinj inv, fun y => ?_⟩
  obtain ⟨x, rfl⟩ := (hasMissing_eq_false_iff sbox).1 hmiss y
  rw [tableGet_buildInverse hinj inv x]

/-- The numbers of the reported errors are at most 8 and leave out 4 and 5 (R170, R174). -/
theorem errNumber_produced (e : ErrCode) :
    (errNumber e).toNat ≤ 8 ∧ errNumber e ≠ 4#4 ∧ errNumber e ≠ 5#4 := by cases e <;> decide

theorem statusInv_raiseErr (e : ErrCode) (s : State) : (raiseErr e s).statusInv := errNumber_produced e

/-- Success and reset leave code 0 (R101, R190). -/
theorem statusInv_of_lastErr_zero {s : State} (h : s.lastErr = 0#4) : s.statusInv := by
  rw [State.statusInv, h]
  decide

theorem statusInv_of_lastErr_eq {s t : State} (hs : s.statusInv) (h : t.lastErr = s.lastErr) : t.statusInv := by
  rwa [State.statusInv, h]

/-- With no valid table the invariant speaks of LASTERR alone. -/
theorem inv_of_tv_false {t : State} (htv : t.tv = false) (hstatus : t.statusInv) : t.Inv :=
  ⟨fun h => absurd (htv.symm.trans h) Bool.false_ne_true, fun h => absurd (htv.symm.trans h) Bool.false_ne_true,
    hstatus⟩

/-- `t` has the tables of `s` and the state of their load: TV, OOR, TBL_COUNT, SBOX and INV. -/
structure SameTables (s t : State) : Prop where
  tv : t.tv = s.tv
  oor : t.oor = s.oor
  tblCount : t.tblCount = s.tblCount
  sbox : t.sbox = s.sbox
  inv : t.inv = s.inv

/-- A change that leaves the tables and their load as they are keeps their part of the invariant. -/
theorem State.Inv.of_sameTables {s t : State} (hs : s.Inv) (h : SameTables s t) (hstatus : t.statusInv) : t.Inv := by
  obtain ⟨htable, hload, -⟩ := hs
  refine ⟨?_, ?_, hstatus⟩
  · rwa [State.tableInv, h.tv, h.sbox, h.inv]
  · rwa [State.loadInv, h.tv, h.tblCount, h.oor]

theorem CommandEffect.inv {i : Instr} {s t : State} (h : CommandEffect s i t) (hs : s.Inv) : t.Inv := by
  cases h with
  | fails i e => exact hs.of_sameTables ⟨rfl, rfl, rfl, rfl, rfl⟩ (statusInv_raiseErr e s)
  | clear => exact inv_of_tv_false rfl (statusInv_of_lastErr_zero rfl)
  | commit hcount hoor hdup hmiss =>
    refine ⟨fun _ => ?_, fun _ => ⟨hcount, hoor⟩, statusInv_of_lastErr_zero rfl⟩
    rw [complete_sbox, complete_inv, tableCommit_sbox, tableCommit_inv]
    exact tablesInverse_buildInverse hdup hmiss s.inv
  | _ => exact hs.of_sameTables ⟨rfl, rfl, rfl, rfl, rfl⟩ (statusInv_of_lastErr_zero rfl)

theorem InputEffect.inv {i : Input} {s t : State} (h : InputEffect s i t) (hs : s.Inv) : t.Inv := by
  have ⟨_, _, hstatus⟩ := hs
  cases h with
  | illegal w => exact hs.of_sameTables ⟨rfl, rfl, rfl, rfl, rfl⟩ (statusInv_raiseErr _ s)
  | command hc => exact hc.inv hs
  | status v =>
    exact hs.of_sameTables
      ⟨writeStatus_tv v s, writeStatus_oor v s, writeStatus_tblCount v s, writeStatus_sbox v s, writeStatus_inv v s⟩
      (statusInv_of_lastErr_eq hstatus (writeStatus_lastErr v s))
  | append v => exact inv_of_tv_false rfl (statusInv_of_lastErr_eq hstatus rfl)
  | reset => exact inv_of_tv_false rfl (statusInv_of_lastErr_zero rfl)
  | _ => exact hs.of_sameTables ⟨rfl, rfl, rfl, rfl, rfl⟩ (statusInv_of_lastErr_eq hstatus rfl)

/-- Settles O49: a step takes an input off, which the invariant does not see, and performs it. -/
theorem stepKeepsInvariant : Obligations.StepKeepsInvariant := by
  intro s t hs h
  obtain ⟨-, rfl⟩ | ⟨i, rest, -, hi⟩ := step_cases h
  · exact hs
  · have htake : (takeInput rest s).Inv := hs
    exact (inputEffect_of_perform hi).inv htake

end Sys2Proof.Machine
end

section
/-! The step on a command write (R21, R62, R100), and the registers at reset (R20). -/

namespace Sys2Proof.Machine

/-- A write to CMD executes the word (R21, R100). -/
theorem perform_write_cmd (w : Word) (s : State) : perform (.write 0x00#6 32 w) s = execute w s :=
  perform_write_offsetOf .cmd w s

theorem execute_of_decode {w : Word} {i : Instr} (h : decode w = .ok i) (s : State) : execute w s = exec i s := by
  rw [execute, h]

/-- Taking off the input just put in front gives the state back (log 1). -/
theorem takeInput_prependInput (i : Input) (s : State) : takeInput s.pending (prependInput i s) = s := rfl

/-- Settles O6: the step performs the CMD write, and that executes the command. -/
theorem stepRunsDecodedCommand : Obligations.StepRunsDecodedCommand := by
  refine ⟨fun s rest w i hp hd => ?_, fun s w => ?_⟩
  · rw [step_of_pending_cons hp, perform_write_cmd, execute_of_decode hd]
    rfl
  · rw [State.withFetchWord, step_of_pending_cons (prependInput_pending _ s), takeInput_prependInput, tableWord_toNat]
    rfl

/-- Settles O48: STATUS is built from fields that are 0, and every other register is 0 or a column of zeros. -/
theorem resetStateReadsZero : Obligations.ResetStateReadsZero := by
  intro r
  cases r with
  | state c => exact Vector.getElem_replicate c.isLt
  | rkey c => exact Vector.getElem_replicate c.isLt
  | _ => rfl

end Sys2Proof.Machine
end

section
/-! Every command answers a next state (R178), and so every host input answers a next state or BusError (R53, R56). -/

namespace Sys2Proof.Machine

/-- A table with no value twice leaves none out, since it has as many entries as there are bytes (R113, R174). -/
theorem hasMissing_of_hasDuplicate_eq_false {t : Table} (h : hasDuplicate t = false) : hasMissing t = false := by
  have hinj := (hasDuplicate_eq_false_iff t).1 h
  have hnodup : (allBytes.map (tableGet t)).Nodup := allBytes_nodup.map fun x y hxy => hinj x y hxy
  have hsub : (allBytes.map (tableGet t)).Subperm allBytes := hnodup.subperm fun v _ => mem_allBytes v
  have hperm := hsub.perm_of_length_le (by rw [List.length_map])
  refine (hasMissing_eq_false_iff t).2 fun v => ?_
  obtain ⟨x, -, hx⟩ := List.mem_map.1 (hperm.mem_iff.2 (mem_allBytes v))
  exact ⟨x, hx⟩

/-- TBLCOMMIT on a full load with no value twice builds the inverse table and validates it (R114). -/
theorem exec_tblcommit_commit {s : State} (hcount : s.tblCount = 256#16) (hoor : s.oor = false)
    (hdup : hasDuplicate s.sbox = false) :
    exec .tblcommit s = .next (complete (tableCommit (buildInverse s.sbox s.inv) s)) :=
  exec_tblcommit_permutation hcount hoor ((hasDuplicate_eq_false_iff _).1 hdup)
    ((hasMissing_eq_false_iff _).1 (hasMissing_of_hasDuplicate_eq_false hdup))

/-- R114: what stood in INV before does not matter, since the build writes every entry. -/
theorem buildInverse_eq_of_hasDuplicate_eq_false {sbox : Table} (hdup : hasDuplicate sbox = false) (i j : Table) :
    buildInverse sbox i = buildInverse sbox j := by
  have hinj := (hasDuplicate_eq_false_iff sbox).1 hdup
  refine table_ext fun y => ?_
  obtain ⟨x, rfl⟩ := (hasMissing_eq_false_iff sbox).1 (hasMissing_of_hasDuplicate_eq_false hdup) y
  rw [tableGet_buildInverse hinj, tableGet_buildInverse hinj]

theorem withTable_answers_next (done s : State) : ∃ t, withTable done s = .next t := by
  cases h : s.tv with
  | true => exact ⟨_, withTable_valid done h⟩
  | false => exact ⟨_, withTable_invalid done h⟩

theorem exec_tblcommit_answers_next (s : State) : ∃ t, exec .tblcommit s = .next t := by
  by_cases hcount : s.tblCount = 256#16
  · cases hoor : s.oor with
    | true => exact ⟨_, exec_tblcommit_range hcount hoor⟩
    | false =>
      cases hdup : hasDuplicate s.sbox with
      | true => exact ⟨_, exec_tblcommit_duplicate hcount hoor hdup⟩
      | false => exact ⟨_, exec_tblcommit_commit hcount hoor hdup⟩
  · exact ⟨_, exec_tblcommit_length hcount⟩

theorem exec_answers_next (i : Instr) (s : State) : ∃ t, exec i s = .next t := by
  cases i with
  | gfinv a =>
    by_cases ha : a = 0x00#8
    · subst ha; exact ⟨_, exec_gfinv_zero s⟩
    · exact ⟨_, exec_gfinv_ne ha s⟩
  | subbytes => exact withTable_answers_next _ s
  | invsubbytes => exact withTable_answers_next _ s
  | encround => exact withTable_answers_next _ s
  | decround => exact withTable_answers_next _ s
  | tblcommit => exact exec_tblcommit_answers_next s
  | sboxrd a => exact withTable_answers_next _ s
  | invrd a => exact withTable_answers_next _ s
  | _ => exact ⟨_, rfl⟩

/-- A word that decodes to nothing reports error 8 (R104). -/
theorem execute_of_decode_error {w : Word} {e : Illegal} (h : decode w = .error e) (s : State) :
    execute w s = .next (raiseErr .illegalCommand s) := by
  rw [execute, h, failed_eq]

theorem writeReg_answers_next (r : Reg) (v : Word) (s : State) : ∃ t, writeReg r v s = .next t := by
  cases r with
  | cmd =>
    obtain ⟨i, -, hi⟩ | ⟨e, -, he⟩ := execute_cases v s
    · exact (exec_answers_next i s).imp fun _ h => hi.trans h
    · exact ⟨_, he⟩
  | _ => exact ⟨_, rfl⟩

/-- R53: a read at no register is refused. -/
theorem perform_read_refused {off : Offset} {width : Nat} (h : accessReg off width = none) (s : State) :
    perform (.read off width) s = .fault .busError := by
  simp only [perform, busRead, h]

/-- R53: a write at no register is refused. -/
theorem perform_write_refused {off : Offset} {width : Nat} (h : accessReg off width = none) (v : Word) (s : State) :
    perform (.write off width v) s = .fault .busError := by
  simp only [perform, busWrite, h]

/-- An access that selects a register answers a next state. -/
theorem perform_access_answers_next {off : Offset} {width : Nat} {r : Reg} (h : accessReg off width = some r)
    (s : State) : (∃ t, perform (.read off width) s = .next t) ∧ ∀ v, ∃ t, perform (.write off width v) s = .next t := by
  obtain ⟨rfl, rfl⟩ := accessReg_eq_some h
  refine ⟨⟨_, perform_read_offsetOf r s⟩, fun v => ?_⟩
  rw [perform_write_offsetOf]
  exact writeReg_answers_next r v s

/-- An input answers a next state, or the bus refuses it; the two other faults and the refusals have no part here. -/
theorem perform_answers_next_or_busError (i : Input) (s : State) :
    (∃ t, perform i s = .next t) ∨ perform i s = .fault .busError := by
  cases i with
  | read off width =>
    cases hr : accessReg off width with
    | none => exact .inr (perform_read_refused hr s)
    | some r => exact .inl (perform_access_answers_next hr s).1
  | write off width v =>
    cases hr : accessReg off width with
    | none => exact .inr (perform_write_refused hr v s)
    | some r => exact .inl ((perform_access_answers_next hr s).2 v)
  | reset => exact .inl ⟨_, perform_reset s⟩

/-- No input of the block itself is refused a meaning (R51, R56). -/
theorem perform_ne_refused (i : Input) (s : State) (r : Refusal) : perform i s ≠ .refused r := by
  intro h
  obtain ⟨t, ht⟩ | hf := perform_answers_next_or_busError i s
  · cases h.symm.trans ht
  · cases h.symm.trans hf

end Sys2Proof.Machine
end

section
/-! Two states that the host cannot tell apart (R191): a step that looks at no table keeps them so, and what looks at a table
is a command that needs a valid one, or TBLCOMMIT on a full load. -/

namespace Sys2Proof.Machine

/-- The two outcomes are of one kind, for one reason, and two next states stay indistinguishable. -/
inductive OutcomesAgree : Host.Outcome State Fault Refusal → Host.Outcome State Fault Refusal → Prop
  | next {t t' : State} (h : t.Agree t') : OutcomesAgree (.next t) (.next t')
  | fault (f : Fault) : OutcomesAgree (.fault f) (.fault f)
  | refused (r : Refusal) : OutcomesAgree (.refused r) (.refused r)

/-- The update looks at no table and writes none, and it leaves alone what says how far their load has come: TV, OOR and
TBL_COUNT. -/
structure TableBlind (f : State → State) : Prop where
  commutes : ∀ (s : State) (sbox inv : Table),
    f { s with sbox := sbox, inv := inv } = { f s with sbox := sbox, inv := inv }
  tv : ∀ s, (f s).tv = s.tv
  oor : ∀ s, (f s).oor = s.oor
  tblCount : ∀ s, (f s).tblCount = s.tblCount

theorem tableBlind_complete : TableBlind complete := ⟨fun _ _ _ => rfl, fun _ => rfl, fun _ => rfl, fun _ => rfl⟩

theorem tableBlind_raiseErr (e : ErrCode) : TableBlind (raiseErr e) :=
  ⟨fun _ _ _ => rfl, fun _ => rfl, fun _ => rfl, fun _ => rfl⟩

theorem tableBlind_writeResult (v : Byte) : TableBlind (writeResult v) :=
  ⟨fun _ _ _ => rfl, fun _ => rfl, fun _ => rfl, fun _ => rfl⟩

/-- A transform that looks at STATE and RKEY alone (R142 to R147). -/
theorem tableBlind_writeCipher (f : Columns → Columns → Columns) :
    TableBlind fun s => writeCipher (f s.rkey s.cipher) s :=
  ⟨fun _ _ _ => rfl, fun _ => rfl, fun _ => rfl, fun _ => rfl⟩

theorem tableBlind_pushReturned_readReg (r : Reg) : TableBlind fun s => pushReturned (readReg r s) s :=
  ⟨fun _ _ _ => by cases r <;> rfl, fun _ => rfl, fun _ => rfl, fun _ => rfl⟩

theorem tableBlind_writeStatus (v : Word) : TableBlind (writeStatus v) :=
  ⟨fun _ _ _ => by unfold writeStatus; split <;> rfl, writeStatus_tv v, writeStatus_oor v, writeStatus_tblCount v⟩

theorem tableBlind_writeStateReg (c : Fin 4) (v : Word) : TableBlind (writeStateReg c v) :=
  ⟨fun _ _ _ => rfl, fun _ => rfl, fun _ => rfl, fun _ => rfl⟩

theorem tableBlind_writeKeyReg (c : Fin 4) (v : Word) : TableBlind (writeKeyReg c v) :=
  ⟨fun _ _ _ => rfl, fun _ => rfl, fun _ => rfl, fun _ => rfl⟩

theorem tableBlind_takeInput (rest : List Input) : TableBlind (takeInput rest) :=
  ⟨fun _ _ _ => rfl, fun _ => rfl, fun _ => rfl, fun _ => rfl⟩

theorem State.agree_refl (s : State) : s.Agree s := ⟨rfl, fun _ => rfl, fun _ _ _ => rfl⟩

theorem OutcomesAgree.refl (o : Host.Outcome State Fault Refusal) : OutcomesAgree o o := by
  cases o with
  | next t => exact .next t.agree_refl
  | fault f => exact .fault f
  | refused r => exact .refused r

namespace State.Agree

variable {s s' : State}

theorem eq_but_tables (h : s.Agree s') : s' = { s with sbox := s'.sbox, inv := s'.inv } := h.1

theorem pending_eq (h : s.Agree s') : s'.pending = s.pending := by rw [h.eq_but_tables]

theorem tblCount_eq (h : s.Agree s') : s'.tblCount = s.tblCount := by rw [h.eq_but_tables]

theorem oor_eq (h : s.Agree s') : s'.oor = s.oor := by rw [h.eq_but_tables]

theorem tv_eq (h : s.Agree s') : s'.tv = s.tv := by rw [h.eq_but_tables]

/-- With a valid table nothing differs. -/
theorem eq_or_tv_false (h : s.Agree s') : s' = s ∨ (s.tv = false ∧ s'.tv = false) := by
  have ⟨_, hvalid, _⟩ := h
  cases htv : s.tv with
  | true => exact .inl (hvalid htv)
  | false => exact .inr ⟨rfl, h.tv_eq.trans htv⟩

/-- A full load with no value above 255 has written every entry of SBOX. -/
theorem sbox_eq (h : s.Agree s') (hcount : s.tblCount = 256#16) (hoor : s.oor = false) : s'.sbox = s.sbox := by
  obtain ⟨-, -, hload⟩ := h
  exact table_ext fun x => (hload hoor x (by rw [hcount]; exact x.isLt)).symm

/-- An update that looks at no table does not tell the states apart. -/
theorem map {f : State → State} (hf : TableBlind f) (h : s.Agree s') : (f s).Agree (f s') := by
  obtain ⟨heq, hvalid, hload⟩ := h
  have hfs' : f s' = { f s with sbox := s'.sbox, inv := s'.inv } := by rw [heq, hf.commutes]
  have hfs : f s = { f s with sbox := s.sbox, inv := s.inv } := hf.commutes s s.sbox s.inv
  have hsbox : (f s).sbox = s.sbox := by rw [hfs]
  refine ⟨by rw [hfs'], fun htv => ?_, fun hoor x hx => ?_⟩
  · rw [hf.tv] at htv
    rw [hvalid htv]
  · rw [hf.oor] at hoor
    rw [hf.tblCount] at hx
    rw [hfs', hsbox]
    exact hload hoor x hx

theorem writeCipher (f : Columns → Columns → Columns) (h : s.Agree s') :
    (writeCipher (f s.rkey s.cipher) s).Agree (writeCipher (f s'.rkey s'.cipher) s') :=
  map (tableBlind_writeCipher f) h

/-- TBLCLR takes the load back to its start, where no entry is written yet (R112). -/
theorem tableClear (h : s.Agree s') : (tableClear s).Agree (tableClear s') := by
  refine ⟨by rw [h.eq_but_tables]; rfl, fun htv => (by cases htv), fun _ x hx => ?_⟩
  exact absurd hx (Nat.not_lt_zero _)

/-- TBL_DATA writes one more entry, the same on both sides, or a value above 255 (R111). -/
theorem tableAppend (v : Word) (h : s.Agree s') : (tableAppend v s).Agree (tableAppend v s') := by
  obtain ⟨heq, -, hload⟩ := h
  refine ⟨by rw [heq]; rfl, fun htv => (by cases htv), fun hoor x hx => ?_⟩
  have hv : ¬ 255 < v.toNat := fun hv => by simp [hv] at hoor
  have hso : s.oor = false := by simpa [hv] using hoor
  have hcount : s'.tblCount = s.tblCount := by rw [heq]
  rw [tableGet_sbox_tableAppend, tableGet_sbox_tableAppend, hcount]
  split
  · rfl
  · next hne =>
    refine hload hso x ?_
    simp only [tableAppend_tblCount, countUp, BitVec.toNat_ofNat] at hx
    omega

theorem applyReset (h : s.Agree s') : (applyReset s).Agree (applyReset s') := by
  have heq : Machine.applyReset s' = Machine.applyReset s := by rw [h.eq_but_tables]; rfl
  rw [heq]
  exact agree_refl _

/-- TBLCOMMIT reads SBOX only when a full load has written it, and INV not at all (R113, R114). -/
theorem exec_tblcommit (h : s.Agree s') : OutcomesAgree (exec .tblcommit s) (exec .tblcommit s') := by
  by_cases hcount : s.tblCount = 256#16
  · have hcount' := h.tblCount_eq.trans hcount
    cases hoor : s.oor with
    | true =>
      rw [exec_tblcommit_range hcount hoor, exec_tblcommit_range hcount' (h.oor_eq.trans hoor)]
      exact .next (h.map (tableBlind_raiseErr .outOfRange))
    | false =>
      have hoor' := h.oor_eq.trans hoor
      have hsbox := h.sbox_eq hcount hoor
      cases hdup : hasDuplicate s.sbox with
      | true =>
        rw [exec_tblcommit_duplicate hcount hoor hdup, exec_tblcommit_duplicate hcount' hoor' (hsbox ▸ hdup)]
        exact .next (h.map (tableBlind_raiseErr .duplicateValue))
      | false =>
        have heq : tableCommit (buildInverse s'.sbox s'.inv) s' = tableCommit (buildInverse s.sbox s.inv) s := by
          rw [hsbox, buildInverse_eq_of_hasDuplicate_eq_false hdup s'.inv s.inv, h.eq_but_tables, hsbox]
          rfl
        rw [exec_tblcommit_commit hcount hoor hdup, exec_tblcommit_commit hcount' hoor' (hsbox ▸ hdup), heq]
        exact .refl _
  · rw [exec_tblcommit_length hcount, exec_tblcommit_length (h.tblCount_eq ▸ hcount)]
    exact .next (h.map (tableBlind_raiseErr .wrongLength))

/-- With no valid table, a command that needs one fails on both sides. -/
theorem withTable (h : s.Agree s') (hs : s.tv = false) (hs' : s'.tv = false) (done done' : State) :
    OutcomesAgree (withTable done s) (withTable done' s') := by
  rw [withTable_invalid done hs, withTable_invalid done' hs']
  exact .next (h.map (tableBlind_raiseErr .noTable))

theorem exec (h : s.Agree s') (i : Instr) : OutcomesAgree (exec i s) (exec i s') := by
  obtain rfl | ⟨hs, hs'⟩ := h.eq_or_tv_false
  · exact .refl _
  cases i with
  | nop => exact .next (h.map tableBlind_complete)
  | gfmul a b => exact .next ((h.map (tableBlind_writeResult _)).map tableBlind_complete)
  | gfinv a =>
    by_cases ha : a = 0x00#8
    · subst ha
      exact .next (h.map (tableBlind_raiseErr .invZero))
    · rw [exec_gfinv_ne ha, exec_gfinv_ne ha]
      exact .next ((h.map (tableBlind_writeResult _)).map tableBlind_complete)
  | shiftrows => exact .next ((h.writeCipher (fun _ => shiftRows)).map tableBlind_complete)
  | invshiftrows => exact .next ((h.writeCipher (fun _ => invShiftRows)).map tableBlind_complete)
  | mixcolumns => exact .next ((h.writeCipher (fun _ => mixColumns)).map tableBlind_complete)
  | invmixcolumns => exact .next ((h.writeCipher (fun _ => invMixColumns)).map tableBlind_complete)
  | addroundkey => exact .next ((h.writeCipher addRoundKey).map tableBlind_complete)
  | tblclr => exact .next (h.tableClear.map tableBlind_complete)
  | tblcommit => exact h.exec_tblcommit
  | subbytes => exact h.withTable hs hs' _ _
  | invsubbytes => exact h.withTable hs hs' _ _
  | encround => exact h.withTable hs hs' _ _
  | decround => exact h.withTable hs hs' _ _
  | sboxrd a => exact h.withTable hs hs' _ _
  | invrd a => exact h.withTable hs hs' _ _

theorem writeReg (h : s.Agree s') (r : Reg) (v : Word) : OutcomesAgree (writeReg r v s) (writeReg r v s') := by
  cases r with
  | cmd =>
    cases hd : decode v with
    | ok i =>
      rw [Machine.writeReg, Machine.writeReg, execute_of_decode hd, execute_of_decode hd]
      exact h.exec i
    | error e =>
      rw [Machine.writeReg, Machine.writeReg, execute_of_decode_error hd, execute_of_decode_error hd]
      exact .next (h.map (tableBlind_raiseErr .illegalCommand))
  | status => exact .next (h.map (tableBlind_writeStatus v))
  | result => exact .next h
  | tblData => exact .next (h.tableAppend v)
  | tblCount => exact .next h
  | state c => exact .next (h.map (tableBlind_writeStateReg c v))
  | rkey c => exact .next (h.map (tableBlind_writeKeyReg c v))

theorem perform (h : s.Agree s') (i : Input) : OutcomesAgree (perform i s) (perform i s') := by
  cases i with
  | read off width =>
    cases hr : accessReg off width with
    | none =>
      rw [perform_read_refused hr, perform_read_refused hr]
      exact .fault .busError
    | some r =>
      obtain ⟨rfl, rfl⟩ := accessReg_eq_some hr
      rw [perform_read_offsetOf, perform_read_offsetOf]
      exact .next (h.map (tableBlind_pushReturned_readReg r))
  | write off width v =>
    cases hr : accessReg off width with
    | none =>
      rw [perform_write_refused hr, perform_write_refused hr]
      exact .fault .busError
    | some r =>
      obtain ⟨rfl, rfl⟩ := accessReg_eq_some hr
      rw [perform_write_offsetOf, perform_write_offsetOf]
      exact h.writeReg r v
  | reset => exact .next h.applyReset

theorem step (h : s.Agree s') : OutcomesAgree (step s) (step s') := by
  cases hp : s.pending with
  | nil =>
    rw [step_of_pending_nil hp, step_of_pending_nil (h.pending_eq.trans hp)]
    exact .next h
  | cons i rest =>
    rw [step_of_pending_cons hp, step_of_pending_cons (h.pending_eq.trans hp)]
    exact (h.map (tableBlind_takeInput rest)).perform i

end State.Agree

/-- Settles O51: the outcomes of the two steps agree, and the three clauses are the three kinds of outcome. -/
theorem stepKeepsAgreement : Obligations.StepKeepsAgreement := by
  intro s s' h
  have hstep := h.step
  generalize step s = o at hstep ⊢
  generalize step s' = o' at hstep ⊢
  cases hstep with
  | next h => exact ⟨by rintro _ ⟨⟩; exact ⟨_, rfl, h⟩, by simp, by simp⟩
  | fault f => exact ⟨by rintro _ ⟨⟩, fun _ => .rfl, by simp⟩
  | refused r => exact ⟨by rintro _ ⟨⟩, by simp, fun _ => .rfl⟩

end Sys2Proof.Machine
end
section
/-! The order of a run (R56, R59): what is still pending has no part in what an input does, and the run is an induction over
the inputs (log 1). -/

namespace Sys2Proof.Machine

theorem withTable_takeInput {done s t : State} (h : withTable done s = .next t) (rest : List Input) :
    withTable (takeInput rest done) (takeInput rest s) = .next (takeInput rest t) := by
  obtain ⟨htv, rfl⟩ | ⟨htv, rfl⟩ := withTable_cases h
  · exact withTable_valid _ htv
  · exact withTable_invalid _ htv

theorem takeInput_complete_tableCommit (inv : Table) (rest : List Input) (s : State) :
    takeInput rest (complete (tableCommit inv s)) = complete (tableCommit inv (takeInput rest s)) := rfl

theorem exec_tblcommit_takeInput {s t : State} (h : exec .tblcommit s = .next t) (rest : List Input) :
    exec .tblcommit (takeInput rest s) = .next (takeInput rest t) := by
  obtain ⟨hcount, rfl⟩ | ⟨hcount, hoor, rfl⟩ | ⟨hcount, hoor, hdup, rfl⟩ | ⟨hcount, hoor, hdup, -, rfl⟩ :=
    execTblcommit_cases h
  · exact exec_tblcommit_length hcount
  · exact exec_tblcommit_range hcount hoor
  · exact exec_tblcommit_duplicate hcount hoor hdup
  · rw [takeInput_complete_tableCommit]
    exact exec_tblcommit_commit (s := takeInput rest s) hcount hoor hdup

theorem exec_takeInput {i : Instr} {s t : State} (h : exec i s = .next t) (rest : List Input) :
    exec i (takeInput rest s) = .next (takeInput rest t) := by
  cases i with
  | gfinv a =>
    by_cases ha : a = 0x00#8
    · subst ha; cases h; rfl
    · rw [exec_gfinv_ne ha] at h ⊢; cases h; rfl
  | subbytes => exact withTable_takeInput h rest
  | invsubbytes => exact withTable_takeInput h rest
  | encround => exact withTable_takeInput h rest
  | decround => exact withTable_takeInput h rest
  | tblcommit => exact exec_tblcommit_takeInput h rest
  | sboxrd a => exact withTable_takeInput h rest
  | invrd a => exact withTable_takeInput h rest
  | _ => cases h; rfl

theorem writeStatus_takeInput (v : Word) (rest : List Input) (s : State) :
    writeStatus v (takeInput rest s) = takeInput rest (writeStatus v s) := by
  unfold writeStatus; split <;> rfl

theorem writeReg_takeInput {r : Reg} {v : Word} {s t : State} (h : writeReg r v s = .next t) (rest : List Input) :
    writeReg r v (takeInput rest s) = .next (takeInput rest t) := by
  cases r with
  | cmd =>
    cases hd : decode v with
    | ok i =>
      rw [writeReg, execute_of_decode hd] at h ⊢
      exact exec_takeInput h rest
    | error e =>
      rw [writeReg, execute_of_decode_error hd] at h ⊢
      cases h
      rfl
  | status => cases h; rw [writeReg, writeStatus_takeInput]
  | _ => cases h; rfl

/-- An input does the same whatever else is pending. -/
theorem perform_takeInput {i : Input} {s t : State} (h : perform i s = .next t) (rest : List Input) :
    perform i (takeInput rest s) = .next (takeInput rest t) := by
  obtain ⟨r, rfl, rfl⟩ | ⟨r, v, rfl, hw⟩ | ⟨rfl, rfl⟩ := perform_cases h
  · rw [perform_read_offsetOf]
    cases r <;> rfl
  · rw [perform_write_offsetOf]
    exact writeReg_takeInput hw rest
  · rfl

theorem InputEffect.pending_eq {i : Input} {s t : State} (h : InputEffect s i t) : t.pending = s.pending := by
  cases h with
  | command hc => exact hc.pending_eq
  | status v => exact writeStatus_pending v s
  | _ => rfl

theorem takeInput_eq_self {s : State} {rest : List Input} (h : s.pending = rest) : takeInput rest s = s := by
  subst h; rfl

theorem run_succ_of_step {M : Host.Core} {s t : M.State} (h : M.step s = .next t) (k : Nat) :
    M.run (k + 1) s = M.run k t := by
  rw [Host.Core.run, h]

/-- A sequence whose first input can be performed: the rest follows from the state it leaves. -/
theorem performAll_cons_cases {i : Input} {rest : List Input} {s t : State} (h : performAll (i :: rest) s = .next t) :
    ∃ u, perform i s = .next u ∧ performAll rest u = .next t := by
  cases hi : perform i s with
  | next u => exact ⟨u, rfl, (performAll_cons_next hi rest).symm.trans h⟩
  | fault f => simp [performAll, hi] at h
  | refused r => simp [performAll, hi] at h

/-- Settles O8: by induction on the inputs, each step performing the first of them. -/
theorem runPerformsInputsInOrder : Obligations.RunPerformsInputsInOrder := by
  intro inputs rest
  induction inputs with
  | nil =>
    intro s t hp h
    exact (congrArg Host.Outcome.next (takeInput_eq_self hp).symm).trans h
  | cons i inputs ih =>
    intro s t hp h
    obtain ⟨u, hu, hrest⟩ := performAll_cons_cases h
    have hpending : u.pending = rest := (inputEffect_of_perform hu).pending_eq
    have hstep : step s = .next (takeInput (inputs ++ rest) u) := by
      rw [step_of_pending_cons hp]
      exact perform_takeInput hu (inputs ++ rest)
    have htake : takeInput rest (takeInput (inputs ++ rest) u) = u := takeInput_eq_self hpending
    exact (run_succ_of_step (M := core) hstep inputs.length).trans (ih _ t rfl (by rw [← htake] at hrest; exact hrest))

end Sys2Proof.Machine
end

section
/-! What the bus refuses, and what it reads and writes (R52 to R55), and the window at BASE (R50, R51). -/

namespace Sys2Proof.Machine

/-- R20: the offsets of the window that hold no register are the misaligned and the reserved ones. -/
theorem regAt_eq_none_iff : ∀ off : Offset,
    regAt off = none ↔ off.toNat % 4 ≠ 0 ∨ off.toNat = 0x14 ∨ off.toNat = 0x18 ∨ off.toNat = 0x1C := by decide

/-- R53: the three reasons for which an access selects no register. -/
theorem accessReg_eq_none_iff (off : Offset) (width : Nat) :
    accessReg off width = none ↔
      off.toNat % 4 ≠ 0 ∨ width ≠ 32 ∨ off.toNat = 0x14 ∨ off.toNat = 0x18 ∨ off.toNat = 0x1C := by
  by_cases hw : width = 32
  · simp only [accessReg, hw, if_true, regAt_eq_none_iff, ne_eq, not_true_eq_false, false_or]
  · simp only [accessReg, hw, if_false, ne_eq, not_false_eq_true, true_or, or_true]

theorem perform_read_eq_busError_iff (off : Offset) (width : Nat) (s : State) :
    perform (.read off width) s = .fault .busError ↔ accessReg off width = none := by
  cases hr : accessReg off width with
  | none => simp only [perform_read_refused hr]
  | some r =>
    obtain ⟨⟨t, ht⟩, -⟩ := perform_access_answers_next hr s
    simp only [ht, reduceCtorEq]

theorem perform_write_eq_busError_iff (off : Offset) (width : Nat) (v : Word) (s : State) :
    perform (.write off width v) s = .fault .busError ↔ accessReg off width = none := by
  cases hr : accessReg off width with
  | none => simp only [perform_write_refused hr]
  | some r =>
    obtain ⟨-, hwrite⟩ := perform_access_answers_next hr s
    obtain ⟨t, ht⟩ := hwrite v
    simp only [ht, reduceCtorEq]

/-- Settles O9: BusError is the answer to the accesses that select no register, and to no other. -/
theorem busErrorExactlyOnRefusedAccess : Obligations.BusErrorExactlyOnRefusedAccess := fun off width s =>
  ⟨(perform_read_eq_busError_iff off width s).trans (accessReg_eq_none_iff off width),
    fun v => (perform_write_eq_busError_iff off width v s).trans (accessReg_eq_none_iff off width)⟩

theorem busRead_offsetOf (r : Reg) (s : State) : busRead (offsetOf r) 32 s = .ok (readReg r s) := by
  rw [busRead, accessReg_offsetOf]

/-- R54: what a read at a register's offset answers and leaves. -/
theorem read_offsetOf (r : Reg) (s : State) :
    busRead (offsetOf r) 32 s = .ok (readReg r s) ∧
      perform (.read (offsetOf r) 32) s = .next { s with returned := readReg r s :: s.returned } :=
  ⟨busRead_offsetOf r s, perform_read_offsetOf r s⟩

/-- Bits put below a number shift it up and add to it. -/
theorem toNat_append_eq_add {m n : Nat} (x : BitVec m) (y : BitVec n) : (x ++ y).toNat = x.toNat * 2 ^ n + y.toNat := by
  rw [BitVec.toNat_append, ← Nat.shiftLeft_add_eq_or_of_lt y.isLt, Nat.shiftLeft_eq]

/-- R27: STATUS as a number. -/
theorem toNat_statusWord (s : State) :
    (statusWord s).toNat = 256 * s.errSeen.toNat + 16 * s.lastErr.toNat + 2 * s.oor.toNat + s.tv.toNat := by
  have herr := s.lastErr.isLt
  have hseen := s.errSeen.toNat_le
  have hoor := s.oor.toNat_le
  have htv := s.tv.toNat_le
  simp only [statusWord, flagBit, BitVec.toNat_setWidth, toNat_append_eq_add, BitVec.toNat_ofBool, BitVec.toNat_ofNat]
  omega

theorem toNat_readReg_result (s : State) : (readReg .result s).toNat = s.result.toNat :=
  BitVec.toNat_setWidth_of_le (by decide)

theorem toNat_readReg_tblCount (s : State) : (readReg .tblCount s).toNat = s.tblCount.toNat :=
  BitVec.toNat_setWidth_of_le (by decide)

/-- Settles O10: each clause is one register's read. -/
theorem readReturnsRegisterWord : Obligations.ReadReturnsRegisterWord := fun s =>
  ⟨read_offsetOf .cmd s, ⟨_, read_offsetOf .status s, toNat_statusWord s⟩,
    ⟨_, read_offsetOf .result s, toNat_readReg_result s⟩, read_offsetOf .tblData s,
    ⟨_, read_offsetOf .tblCount s, toNat_readReg_tblCount s⟩, fun c => read_offsetOf (.state c) s,
    fun c => read_offsetOf (.rkey c) s⟩

/-- R52: the offset of a byte lane keeps its word and its lane. -/
theorem word_and_lane_of_add : ∀ (off : Offset) (j : Fin 4), off.toNat % 4 = 0 →
    (off + BitVec.ofNat 6 j.val).toNat = off.toNat + j.val ∧ (off + BitVec.ofNat 6 j.val) &&& 0b111100#6 = off ∧
      (off + BitVec.ofNat 6 j.val).toNat % 4 = j.val := by decide

theorem offsetOf_aligned (r : Reg) : (offsetOf r).toNat % 4 = 0 := by
  by_contra h
  have hnone := (regAt_eq_none_iff (offsetOf r)).2 (.inl h)
  cases (regAt_offsetOf r).symm.trans hnone

/-- R52: the bytes of a register in the platform's address map. -/
theorem platformByte_register (p : Params) (s : State) (r : Reg) (j : Fin 4) :
    platformByte p (p.base + (offsetOf r).toNat + j.val) s = some (lane (readReg r s) j) := by
  obtain ⟨hsum, hword, hlane⟩ := word_and_lane_of_add (offsetOf r) j (offsetOf_aligned r)
  rw [Nat.add_assoc, ← hsum, platformByte, windowOffset_add, Option.bind_some, windowByte, hword, regAt_offsetOf,
    Option.map_some]
  exact congrArg (fun k => some (lane (readReg r s) k)) (Fin.ext hlane)

theorem toNat_offsetOf_state (c : Fin 4) : (offsetOf (.state c)).toNat = 0x20 + 4 * c.val := by fin_cases c <;> rfl

theorem toNat_offsetOf_rkey (c : Fin 4) : (offsetOf (.rkey c)).toNat = 0x30 + 4 * c.val := by fin_cases c <;> rfl

theorem getElem_toBlock (m : Columns) (i : Fin 16) :
    (toBlock m)[i] = matrixByte m ⟨i.val % 4, by omega⟩ ⟨i.val / 4, by omega⟩ := by
  simp [toBlock]

/-- R52: where four consecutive registers hold a matrix, block byte `i` is lane `i mod 4` of the register `i div 4`. -/
theorem platformByte_block (p : Params) {s : State} {column : Fin 4 → Reg} {first : Nat} {m : Columns}
    (hoff : ∀ c, (offsetOf (column c)).toNat = first + 4 * c.val) (hread : ∀ c, readReg (column c) s = m[c])
    (i : Fin 16) : platformByte p (p.base + first + i.val) s = some (toBlock m)[i] := by
  have hbyte := platformByte_register p s (column ⟨i.val / 4, by omega⟩) ⟨i.val % 4, by omega⟩
  have haddr : p.base + (first + 4 * (i.val / 4)) + i.val % 4 = p.base + first + i.val := by omega
  rw [hoff, hread, haddr] at hbyte
  rw [getElem_toBlock, hbyte, matrixByte]

/-- Settles O12: the bytes of any register, and the two blocks as the bytes of four registers each. -/
theorem windowBytesAreLittleEndian : Obligations.WindowBytesAreLittleEndian := fun p s =>
  ⟨platformByte_register p s, fun i =>
    ⟨platformByte_block p toNat_offsetOf_state (fun _ => rfl) i,
      platformByte_block p toNat_offsetOf_rkey (fun _ => rfl) i, getElem_toBlock s.cipher i⟩⟩

/-- The platform address of an access (R50). -/
def PlatformAccess.addr : PlatformAccess → Nat
  | .read addr _ => addr
  | .write addr _ _ => addr

/-- The block's access that a platform access becomes at an offset of the window (R50). -/
def PlatformAccess.atOffset (off : Offset) : PlatformAccess → Input
  | .read _ width => .read off width
  | .write _ width v => .write off width v

theorem platformAccess_of_windowOffset_eq_some {p : Params} {a : PlatformAccess} {off : Offset}
    (h : windowOffset p.base a.addr = some off) (s : State) : platformAccess p a s = perform (a.atOffset off) s := by
  cases a with
  | read addr width => rw [PlatformAccess.addr] at h; simp only [platformAccess, h, PlatformAccess.atOffset]
  | write addr width v => rw [PlatformAccess.addr] at h; simp only [platformAccess, h, PlatformAccess.atOffset]

theorem platformAccess_of_windowOffset_eq_none {p : Params} {a : PlatformAccess}
    (h : windowOffset p.base a.addr = none) (s : State) : platformAccess p a s = .refused .outsideWindow := by
  cases a with
  | read addr width => rw [PlatformAccess.addr] at h; simp only [platformAccess, h]
  | write addr width v => rw [PlatformAccess.addr] at h; simp only [platformAccess, h]

/-- R51: there is no step for the addresses outside the window, and for them only. -/
theorem platformAccess_eq_outsideWindow_iff (p : Params) (a : PlatformAccess) (s : State) :
    platformAccess p a s = .refused .outsideWindow ↔ a.addr < p.base ∨ p.base + 0x3F < a.addr := by
  rw [← windowOffset_eq_none_iff]
  cases h : windowOffset p.base a.addr with
  | none => simp only [platformAccess_of_windowOffset_eq_none h]
  | some off => simp only [platformAccess_of_windowOffset_eq_some h, perform_ne_refused, reduceCtorEq]

/-- Settles O13: an address has no offset exactly outside the window, and within it the access is the block's. -/
theorem windowDecodesItsAddressesOnly : Obligations.WindowDecodesItsAddressesOnly := fun p s width v =>
  ⟨fun addr => platformAccess_eq_outsideWindow_iff p (.read addr width) s,
    fun addr => platformAccess_eq_outsideWindow_iff p (.write addr width v) s,
    fun off => ⟨platformAccess_of_windowOffset_eq_some (a := .read _ width) (windowOffset_add p.base off) s,
      platformAccess_of_windowOffset_eq_some (a := .write _ width v) (windowOffset_add p.base off) s⟩⟩

/-- R55: bit 8 clears ERRSEEN, and no other bit of a STATUS write has an effect. -/
theorem writeStatus_eq_and (v : Word) (s : State) :
    writeStatus v s = { s with errSeen := s.errSeen && !v.getLsbD 8 } := by
  unfold writeStatus
  cases v.getLsbD 8 <;> simp

theorem getElem_set_column (m : Columns) (c d : Fin 4) (v : Word) :
    (m.set c.val v c.isLt)[d] = if d = c then v else m[d] := by
  simp only [Fin.getElem_fin, Vector.getElem_set, Fin.ext_iff, eq_comm]

/-- Settles O11: each clause is one register's write. -/
theorem registerWritesTakeEffect : Obligations.RegisterWritesTakeEffect := fun s v =>
  ⟨perform_write_cmd v s, (perform_write_offsetOf .status v s).trans (congrArg _ (writeStatus_eq_and v s)),
    perform_write_offsetOf .result v s, perform_write_tblData v s, perform_write_offsetOf .tblCount v s,
    fun c => ⟨_, perform_write_offsetOf (.state c) v s, rfl, fun d => getElem_set_column s.cipher c d v⟩,
    fun c => ⟨_, perform_write_offsetOf (.rkey c) v s, rfl, fun d => getElem_set_column s.rkey c d v⟩⟩

end Sys2Proof.Machine
end

section
/-! What may be repeated (R57): accesses of registers, and seven of the commands. -/

namespace Sys2Proof.Machine

theorem writeStatus_idem (v : Word) (s : State) : writeStatus v (writeStatus v s) = writeStatus v s := by
  simp only [writeStatus_eq_and, Bool.and_assoc, Bool.and_self]

theorem writeStateReg_idem (c : Fin 4) (v : Word) (s : State) :
    writeStateReg c v (writeStateReg c v s) = writeStateReg c v s := by
  simp only [writeStateReg, Vector.set_set]

theorem writeKeyReg_idem (c : Fin 4) (v : Word) (s : State) :
    writeKeyReg c v (writeKeyReg c v s) = writeKeyReg c v s := by
  simp only [writeKeyReg, Vector.set_set]

/-- Only CMD and TBL_DATA heed a second write of the same word. -/
theorem writeReg_idem {r : Reg} {v : Word} {s t : State} (hcmd : r ≠ .cmd) (hdata : r ≠ .tblData)
    (h : writeReg r v s = .next t) : writeReg r v t = .next t := by
  cases r with
  | cmd => exact absurd rfl hcmd
  | tblData => exact absurd rfl hdata
  | status => cases h; rw [writeReg, writeStatus_idem]
  | state c => cases h; rw [writeReg, writeStateReg_idem]
  | rkey c => cases h; rw [writeReg, writeKeyReg_idem]
  | result => rfl
  | tblCount => rfl

/-- Settles O14: a read only records its word, and the registers concerned are neither CMD nor TBL_DATA. -/
theorem registerAccessesAreIdempotent : Obligations.RegisterAccessesAreIdempotent := by
  refine ⟨fun off width s t h => ?read, fun off v s t hoff h => ?write⟩
  case read =>
    cases inputEffect_of_perform h with
    | read r => rfl
  case write =>
    cases hr : accessReg off 32 with
    | none => cases h.symm.trans (perform_write_refused hr v s)
    | some r =>
      obtain ⟨rfl, -⟩ := accessReg_eq_some hr
      rw [perform_write_offsetOf] at h ⊢
      refine writeReg_idem ?_ ?_ h
      · rintro rfl; revert hoff; decide
      · rintro rfl; revert hoff; decide

/-- A table lookup whose value depends on no RESULT and no LASTERR can be repeated (R115, R116). -/
theorem withTable_writeResult_idem {value : State → Byte} {s t : State}
    (hvalue : ∀ v, value (complete (writeResult v s)) = value s) (h : withTable (writeResult (value s) s) s = .next t) :
    withTable (writeResult (value t) t) t = .next t := by
  obtain ⟨htv, rfl⟩ | ⟨htv, rfl⟩ := withTable_cases h
  · rw [hvalue]
    exact withTable_valid _ htv
  · exact withTable_invalid _ htv

/-- A second TBLCOMMIT fails as the first did, or builds the same inverse table again (R113, R114). -/
theorem exec_tblcommit_idem {s t : State} (h : exec .tblcommit s = .next t) : exec .tblcommit t = .next t := by
  obtain ⟨hcount, rfl⟩ | ⟨hcount, hoor, rfl⟩ | ⟨hcount, hoor, hdup, rfl⟩ | ⟨hcount, hoor, hdup, -, rfl⟩ :=
    execTblcommit_cases h
  · exact exec_tblcommit_length hcount
  · exact exec_tblcommit_range hcount hoor
  · exact exec_tblcommit_duplicate hcount hoor hdup
  · generalize hinv : buildInverse s.sbox s.inv = inv
    have hagain : buildInverse s.sbox inv = inv := (buildInverse_eq_of_hasDuplicate_eq_false hdup _ _).trans hinv
    rw [exec_tblcommit_commit (s := complete (tableCommit inv s)) hcount hoor hdup, complete_sbox, complete_inv,
      tableCommit_sbox, tableCommit_inv, hagain]
    rfl

theorem exec_gfinv_idem {a : Byte} {s t : State} (h : exec (.gfinv a) s = .next t) : exec (.gfinv a) t = .next t := by
  by_cases ha : a = 0x00#8
  · subst ha; cases h; rfl
  · rw [exec_gfinv_ne ha] at h ⊢; cases h; rfl

/-- Settles O15: command by command. -/
theorem repeatableCommandsAreIdempotent : Obligations.RepeatableCommandsAreIdempotent := by
  intro i s t hi h
  obtain rfl | rfl | rfl | ⟨a, b, rfl⟩ | ⟨a, rfl⟩ | ⟨a, rfl⟩ | ⟨a, rfl⟩ := hi
  · cases h; rfl
  · cases h; rfl
  · exact exec_tblcommit_idem h
  · cases h; rfl
  · exact exec_gfinv_idem h
  · exact withTable_writeResult_idem (value := fun s => tableGet s.sbox a) (fun _ => rfl) h
  · exact withTable_writeResult_idem (value := fun s => tableGet s.inv a) (fun _ => rfl) h

end Sys2Proof.Machine
end

section
/-! The decoder read forwards (R72 to R74): the opcode tells the rows of the map apart, so the row that a command's word
selects is the row it decodes by; and the legal words are the commands' words. -/

namespace Sys2Proof

/-- Every row of the map looks at the whole opcode (R72). -/
theorem opField_mask_of_mem_rows : ∀ r ∈ rows, opField r.mask = 0xFF#8 := by decide

/-- A row's pattern is 0 outside the opcode (R72). -/
theorem pattern_fields_of_mem_rows : ∀ r ∈ rows,
    aField r.pattern = 0x00#8 ∧ bField r.pattern = 0x00#8 ∧ rsvField r.pattern = 0x00#8 := by decide

/-- A row masks out the operands that its opcode takes (R72). -/
theorem mask_operands_of_mem_rows : ∀ r ∈ rows,
    (opcodeTakesA (opField r.pattern).toNat = true → aField r.mask = 0x00#8) ∧
    (opcodeTakesB (opField r.pattern).toNat = true → bField r.mask = 0x00#8) := by decide

theorem rows_opcodes_nodup : (rows.map fun r => opField r.pattern).Nodup := by decide

/-- A word selects only rows of its own opcode. -/
theorem opField_of_selects {r : Row} (hr : r ∈ rows) {w : Word} (h : r.selects w = true) :
    opField r.pattern = opField w :=
  (extractLsb'_of_masked (beq_iff_eq.1 h) (opField_mask_of_mem_rows r hr)).symm

/-- Settles O4: the opcodes of the selected rows all equal the word's, and no two rows share an opcode. -/
theorem opcodeRowsSelectAtMostOne : Obligations.OpcodeRowsSelectAtMostOne := by
  refine ⟨rfl, fun w => ?_⟩
  generalize hsel : rows.filter (fun r => r.selects w) = selected
  have hnodup : (selected.map fun r => opField r.pattern).Nodup := by
    rw [← hsel]
    exact rows_opcodes_nodup.sublist (List.filter_sublist.map _)
  have hsame : selected.map (fun r => opField r.pattern) = List.replicate selected.length (opField w) := by
    refine List.map_eq_replicate_iff.2 fun r hr => ?_
    obtain ⟨hmem, hw⟩ := List.mem_filter.1 (hsel ▸ hr)
    exact opField_of_selects hmem hw
  rw [hsame] at hnodup
  exact List.nodup_replicate.1 hnodup

/-- R73: a word decodes by any row that it selects, since no other row shares its opcode. -/
theorem decode_of_selects {r : Row} (hr : r ∈ rows) {w : Word} (h : r.selects w = true) :
    decode w = .ok (r.build (aField w) (bField w)) := by
  obtain ⟨found, hfound⟩ := Option.isSome_iff_exists.1
    (List.find?_isSome (p := fun r : Row => r.selects w) |>.2 ⟨r, hr, h⟩)
  have hop : opField found.pattern = opField r.pattern :=
    (opField_of_selects (List.mem_of_find?_eq_some hfound)
      (List.find?_some (p := fun r : Row => r.selects w) hfound)).trans (opField_of_selects hr h).symm
  have hrow : found = r := List.inj_on_of_nodup_map rows_opcodes_nodup (List.mem_of_find?_eq_some hfound) hr hop
  rw [decode, hfound, hrow]

/-- Two words with the same fields are the same (R70). -/
theorem word_ext {v w : Word} (hop : opField v = opField w) (ha : aField v = aField w) (hb : bField v = bField w)
    (hrsv : rsvField v = rsvField w) : v = w := by
  rw [word_eq_fields v, word_eq_fields w, hop, ha, hb, hrsv]

/-- R74: every command's word is legal. -/
theorem legalWord_encode (i : Instr) : legalWord (encode i) = true := by
  cases i with
  | gfmul a b => exact legalWord_encode_of _ rfl (.inl rfl) (.inl rfl)
  | gfinv a => exact legalWord_encode_of _ rfl (.inl rfl) (.inr rfl)
  | sboxrd a => exact legalWord_encode_of _ rfl (.inl rfl) (.inr rfl)
  | invrd a => exact legalWord_encode_of _ rfl (.inl rfl) (.inr rfl)
  | _ => exact legalWord_encode_of _ rfl (.inr rfl) (.inr rfl)

/-- R74 on the fields of a word instead of its number. -/
theorem legalWord_iff (w : Word) :
    legalWord w = true ↔ opcodeListed (opField w).toNat = true ∧ rsvField w = 0x00#8 ∧
      (opcodeTakesA (opField w).toNat = true ∨ aField w = 0x00#8) ∧
      (opcodeTakesB (opField w).toNat = true ∨ bField w = 0x00#8) := by
  have hop : (opField w).toNat = w.toNat % 256 := by rw [opField, toNat_field, pow_zero, Nat.div_one]
  have ha : (aField w).toNat = w.toNat / 2 ^ 8 % 256 := toNat_field w 8
  have hb : (bField w).toNat = w.toNat / 2 ^ 16 % 256 := toNat_field w 16
  have hrsv : (rsvField w).toNat = w.toNat / 2 ^ 24 := by
    have := w.isLt
    rw [rsvField, toNat_field]
    omega
  simp only [legalWord, ← hop, ← ha, ← hb, ← hrsv, Bool.and_eq_true, Bool.or_eq_true, beq_iff_eq, and_assoc,
    ← BitVec.toNat_inj (y := 0x00#8), BitVec.toNat_zero]

/-- A byte vanishes under a mask when one of the two is 0. -/
theorem byte_and_eq_zero {x m : Byte} (h : m = 0x00#8 ∨ x = 0x00#8) : x &&& m = 0x00#8 := by
  obtain rfl | rfl := h
  · exact BitVec.and_zero
  · exact BitVec.zero_and

/-- A legal word selects the row of its opcode (R72, R74). -/
theorem selects_of_legalWord {r : Row} (hr : r ∈ rows) {w : Word} (hw : legalWord w = true)
    (hop : opField r.pattern = opField w) : r.selects w = true := by
  obtain ⟨-, hrsv, ha, hb⟩ := (legalWord_iff w).1 hw
  obtain ⟨hpa, hpb, hprsv⟩ := pattern_fields_of_mem_rows r hr
  obtain ⟨hmaskA, hmaskB⟩ := mask_operands_of_mem_rows r hr
  have hfield (k : Nat) : (w &&& r.mask).extractLsb' k 8 = w.extractLsb' k 8 &&& r.mask.extractLsb' k 8 :=
    BitVec.extractLsb'_and
  refine beq_iff_eq.2 (word_ext ((hfield 0).trans ?op) ((hfield 8).trans ?a) ((hfield 16).trans ?b)
    ((hfield 24).trans ?rsv))
  case op =>
    rw [hop, ← opField, ← opField, opField_mask_of_mem_rows r hr]
    exact BitVec.and_allOnes
  case a =>
    rw [hpa]
    exact byte_and_eq_zero (ha.imp_left fun h => hmaskA (hop ▸ h))
  case b =>
    rw [hpb]
    exact byte_and_eq_zero (hb.imp_left fun h => hmaskB (hop ▸ h))
  case rsv =>
    rw [hprsv]
    exact byte_and_eq_zero (.inr hrsv)

/-- The row of a command's opcode decodes its word, when it builds the command from its operands (R73). -/
theorem decode_encode_of_row {r : Row} {i : Instr} (hr : r ∈ rows) (hop : opField r.pattern = i.opcode)
    (hbuild : r.build i.operandA i.operandB = i) : decode (encode i) = .ok i := by
  have hsel := selects_of_legalWord hr (legalWord_encode i) (hop.trans (opField_encode i).symm)
  rw [decode_of_selects hr hsel, aField_encode, bField_encode, hbuild]

/-- Decoding undoes encoding (R73, R75). The four commands with operands go by their row; a command without operands has a
single word, on which the decoder is evaluated. -/
theorem decode_encode (i : Instr) : decode (encode i) = .ok i := by
  cases i with
  | gfmul a b => exact decode_encode_of_row (List.mem_of_getElem? (i := 1) rfl) rfl rfl
  | gfinv a => exact decode_encode_of_row (List.mem_of_getElem? (i := 2) rfl) rfl rfl
  | sboxrd a => exact decode_encode_of_row (List.mem_of_getElem? (i := 14) rfl) rfl rfl
  | invrd a => exact decode_encode_of_row (List.mem_of_getElem? (i := 15) rfl) rfl rfl
  | _ => rfl

/-- Settles O1: command by command, each by the one row that its word selects. -/
theorem decodeInvertsEncode : Obligations.DecodeInvertsEncode := decode_encode

/-- Settles O2: the decoder read backwards. -/
theorem encodeInvertsDecode : Obligations.EncodeInvertsDecode := fun _ _ => encode_of_decode

/-- The map has a row for every listed opcode (R72). -/
theorem mem_rows_opcodes_of_opcodeListed : ∀ op : Byte, opcodeListed op.toNat = true →
    op ∈ rows.map fun r => opField r.pattern := by decide

/-- The words that decode are the legal ones (R73, R74). -/
theorem exists_decode_eq_ok_iff (w : Word) : (∃ i, decode w = .ok i) ↔ legalWord w = true := by
  constructor
  · rintro ⟨i, hi⟩
    rw [← encode_of_decode hi]
    exact legalWord_encode i
  · intro h
    obtain ⟨hlisted, -⟩ := (legalWord_iff w).1 h
    obtain ⟨r, hr, hop⟩ := List.mem_map.1 (mem_rows_opcodes_of_opcodeListed _ hlisted)
    exact ⟨_, decode_of_selects hr (selects_of_legalWord hr h hop)⟩

/-- Settles O3: a word that is not legal does not decode, and executing it is `raise Err(8)` and nothing else. -/
theorem illegalWordsOnlyReportErrorEight : Obligations.IllegalWordsOnlyReportErrorEight := by
  refine fun w => ⟨exists_decode_eq_ok_iff w, fun hillegal s => ?_⟩
  rw [Machine.perform_write_cmd]
  cases hd : decode w with
  | ok i => exact absurd ((exists_decode_eq_ok_iff w).1 ⟨i, hd⟩) (Bool.eq_false_iff.1 hillegal)
  | error e => exact Machine.execute_of_decode_error hd s

/-- A worked encoding of R77 is read both ways once it is written. -/
theorem encode_and_decode_of_encode_eq {i : Instr} {w : Word} (h : encode i = w) :
    encode i = w ∧ decode w = .ok i := ⟨h, h ▸ decode_encode i⟩

/-- Settles O5: each worked word is evaluated, and decoding is the inverse; the two illegal words select no row. -/
theorem workedEncodings : Obligations.WorkedEncodings :=
  ⟨encode_and_decode_of_encode_eq rfl, encode_and_decode_of_encode_eq rfl, encode_and_decode_of_encode_eq rfl,
    encode_and_decode_of_encode_eq rfl, encode_and_decode_of_encode_eq rfl, rfl, rfl⟩

end Sys2Proof
end

section
/-! A whole LOADTABLE (R76): what a sequence of TBL_DATA writes leaves behind (R111), by induction from its last write, and
TBLCOMMIT's answer to it (R113, R114). -/

namespace Sys2Proof.Machine

/-- The state after a sequence of TBL_DATA writes (R111). -/
def appendAll (values : List Word) (s : State) : State := values.foldl (fun t v => tableAppend v t) s

theorem appendAll_concat (values : List Word) (v : Word) (s : State) :
    appendAll (values ++ [v]) s = tableAppend v (appendAll values s) := List.foldl_concat ..

/-- The host's writes of the values are performed in order (R59, R111). -/
theorem performAll_writes (values : List Word) (s : State) :
    performAll (values.map (wr .tblData)) s = .next (appendAll values s) := by
  induction values generalizing s with
  | nil => rfl
  | cons v values ih =>
    rw [List.map_cons, performAll_cons_next (perform_wr .tblData v s)]
    exact ih (tableAppend v s)

/-- What no TBL_DATA write changes, a sequence of them does not change. -/
theorem appendAll_unchanged {α : Type} {field : State → α} (h : ∀ v s, field (tableAppend v s) = field s)
    (values : List Word) (s : State) : field (appendAll values s) = field s := by
  induction values using List.reverseRecOn with
  | nil => rfl
  | append_singleton values v ih => rw [appendAll_concat, h, ih]

theorem appendAll_tv {s : State} (h : s.tv = false) (values : List Word) : (appendAll values s).tv = false := by
  induction values using List.reverseRecOn with
  | nil => exact h
  | append_singleton values v _ => rw [appendAll_concat, tableAppend_tv]

/-- OOR is 1 exactly when a value above 255 was written (R30, R111). -/
theorem appendAll_oor {s : State} (h : s.oor = false) (values : List Word) :
    (appendAll values s).oor = true ↔ ∃ v ∈ values, 255 < v.toNat := by
  induction values using List.reverseRecOn with
  | nil => simp [appendAll, h]
  | append_singleton values v ih =>
    rw [appendAll_concat, tableAppend_oor]
    by_cases hv : 255 < v.toNat <;> simp [hv, ih]

/-- TBL_COUNT counts the values written and stops at 0xFFFF (R32, R111). -/
theorem toNat_appendAll_tblCount {s : State} (h : s.tblCount = 0#16) (values : List Word) :
    (appendAll values s).tblCount.toNat = min values.length 0xFFFF := by
  induction values using List.reverseRecOn with
  | nil => rw [appendAll, List.foldl_nil, h]; rfl
  | append_singleton values v ih =>
    rw [appendAll_concat, tableAppend_tblCount, countUp, ih, BitVec.toNat_ofNat, List.length_append,
      List.length_singleton]
    omega

theorem appendAll_tblCount_eq_iff {s : State} (h : s.tblCount = 0#16) (values : List Word) :
    (appendAll values s).tblCount = 256#16 ↔ values.length = 256 := by
  rw [← BitVec.toNat_inj, toNat_appendAll_tblCount h, BitVec.toNat_ofNat]
  omega

/-- A value that fits a byte is the byte's word. -/
theorem setWidth_setWidth_byte {v : Word} (h : v.toNat ≤ 255) : (v.setWidth 8).setWidth 32 = v := by
  apply BitVec.eq_of_toNat_eq
  rw [BitVec.toNat_setWidth, BitVec.toNat_setWidth]
  omega

/-- Bytes with the same word are the same. -/
theorem setWidth_word_inj (b c : Byte) : b.setWidth 32 = c.setWidth 32 ↔ b = c := by
  refine ⟨fun h => ?_, congrArg _⟩
  simpa using congrArg (BitVec.setWidth 8) h

/-- Each value stands in SBOX at its place in the sequence (R111). -/
theorem getElem?_eq_tableGet_appendAll {s : State} (h : s.tblCount = 0#16) {values : List Word}
    (hlen : values.length ≤ 256) (hbytes : ∀ v ∈ values, v.toNat ≤ 255) {x : Byte} (hx : x.toNat < values.length) :
    values[x.toNat]? = some ((tableGet (appendAll values s).sbox x).setWidth 32) := by
  induction values using List.reverseRecOn with
  | nil => exact absurd hx (Nat.not_lt_zero _)
  | append_singleton values v ih =>
    rw [List.length_append, List.length_singleton] at hlen hx
    have hcount : (appendAll values s).tblCount.toNat = values.length := by
      rw [toNat_appendAll_tblCount h]
      omega
    have hv : v.toNat ≤ 255 := hbytes v (List.mem_append_right _ (List.mem_singleton_self v))
    rw [appendAll_concat, tableGet_sbox_tableAppend, hcount]
    by_cases hlast : values.length = x.toNat
    · rw [if_pos ⟨hv, hlast⟩, setWidth_setWidth_byte hv, ← hlast, List.getElem?_concat_length]
    · have hbefore : x.toNat < values.length := by omega
      rw [if_neg fun hc => hlast hc.2, List.getElem?_append_left hbefore]
      exact ih (by omega) (fun u hu => hbytes u (List.mem_append_left _ hu)) hbefore

/-- `t` holds the 256 words of the sequence, in order. -/
def HoldsValues (t : Table) (values : List Word) : Prop :=
  ∀ x : Byte, values[x.toNat]? = some ((tableGet t x).setWidth 32)

/-- The sequence is then the table's entries in index order, each as a word. -/
theorem HoldsValues.eq_map {t : Table} {values : List Word} (h : HoldsValues t values) (hlen : values.length = 256) :
    values = allBytes.map fun x => (tableGet t x).setWidth 32 := by
  have hlen' : allBytes.length = 256 := by rw [allBytes, List.length_map, List.length_range]
  refine List.ext_getElem (by rw [List.length_map, hlen, hlen']) fun n hn _ => ?_
  have hx : (BitVec.ofNat 8 n).toNat = n := by
    rw [BitVec.toNat_ofNat]
    omega
  have hvalue := h (BitVec.ofNat 8 n)
  rw [hx, List.getElem?_eq_getElem hn] at hvalue
  simpa [allBytes] using hvalue

/-- A table has no value twice exactly when the sequence it holds has none (R113). -/
theorem HoldsValues.hasDuplicate_eq_false_iff {t : Table} {values : List Word} (h : HoldsValues t values)
    (hlen : values.length = 256) : hasDuplicate t = false ↔ values.Nodup := by
  rw [Machine.hasDuplicate_eq_false_iff, h.eq_map hlen, List.nodup_map_iff_inj_on allBytes_nodup]
  simp only [mem_allBytes, true_imp_iff, setWidth_word_inj]

/-- TBLCOMMIT of a full load with no value twice: the table is valid, and INV is its inverse (R114, R117). -/
theorem valid_of_exec_tblcommit {s t : State} (h : exec .tblcommit s = .next t) (hcount : s.tblCount = 256#16)
    (hoor : s.oor = false) (hdup : hasDuplicate s.sbox = false) :
    t.tv = true ∧ t.lastErr = 0#4 ∧ t.sbox = s.sbox ∧ tablesInverse t.sbox t.inv := by
  cases h.symm.trans (exec_tblcommit_commit hcount hoor hdup)
  refine ⟨rfl, rfl, rfl, ?_⟩
  rw [complete_sbox, complete_inv, tableCommit_sbox, tableCommit_inv]
  exact tablesInverse_buildInverse hdup (hasMissing_of_hasDuplicate_eq_false hdup) s.inv

/-- The state in which the TBLCOMMIT of a LOADTABLE runs (R76). -/
def loaded (values : List Word) (s : State) : State := appendAll values (complete (tableClear s))

/-- LOADTABLE ends in TBLCOMMIT, on the state that TBLCLR and the writes leave (R76). -/
theorem performAll_loadTable (values : List Word) (s : State) :
    performAll (loadTable values) s = exec .tblcommit (loaded values s) := by
  have hcommit : performAll [cmd .tblcommit] (loaded values s) = exec .tblcommit (loaded values s) := by
    obtain ⟨t, ht⟩ := exec_tblcommit_answers_next (loaded values s)
    rw [ht]
    exact performAll_cons_next ((perform_cmd_of_decode (decode_encode _) _).trans ht) []
  rw [loadTable, List.cons_append, performAll_cons_next (perform_cmd_tblclr s),
    performAll_append_next (performAll_writes values _)]
  exact hcommit

theorem loaded_tv (values : List Word) (s : State) : (loaded values s).tv = false := appendAll_tv rfl values

theorem holdsValues_loaded {values : List Word} (hlen : values.length = 256) (hbytes : ∀ v ∈ values, v.toNat ≤ 255)
    (s : State) : HoldsValues (loaded values s).sbox values := fun x =>
  getElem?_eq_tableGet_appendAll rfl hlen.le hbytes (hlen ▸ x.isLt)

/-- Settles O46: the checks of TBLCOMMIT, read on the state that the writes leave, are the conditions on the sequence. -/
theorem loadTableValidatesSequence : Obligations.LoadTableValidatesSequence := by
  intro values s
  obtain ⟨t, ht⟩ := exec_tblcommit_answers_next (loaded values s)
  have heffect := commandEffect_of_exec ht
  have hcount (hlen : values.length = 256) : (loaded values s).tblCount = 256#16 :=
    (appendAll_tblCount_eq_iff rfl values).2 hlen
  have hoor (hbytes : ∀ v ∈ values, v.toNat ≤ 255) : (loaded values s).oor = false := by
    refine Bool.eq_false_iff.2 fun h => ?_
    obtain ⟨v, hv, hlarge⟩ := (appendAll_oor rfl values).1 h
    exact absurd hlarge (hbytes v hv).not_gt
  refine ⟨t, (performAll_loadTable values s).trans ht, ?result, ?cipher, ?rkey, ?length, ?range, ?duplicate, ?commit⟩
  case result =>
    exact (heffect.result_eq (by simp [WritesResult])).trans (appendAll_unchanged (fun _ _ => rfl) values _)
  case cipher => exact (heffect.cipher_eq (by decide)).trans (appendAll_unchanged (fun _ _ => rfl) values _)
  case rkey => exact heffect.rkey_eq.trans (appendAll_unchanged (fun _ _ => rfl) values _)
  case length =>
    intro hlen
    cases ht.symm.trans (exec_tblcommit_length (mt (appendAll_tblCount_eq_iff rfl values).1 hlen))
    exact ⟨loaded_tv values s, rfl⟩
  case range =>
    intro hlen hlarge
    cases ht.symm.trans (exec_tblcommit_range (hcount hlen) ((appendAll_oor rfl values).2 hlarge))
    exact ⟨loaded_tv values s, rfl⟩
  case duplicate =>
    intro hlen hbytes hnodup
    have hdup := mt ((holdsValues_loaded hlen hbytes s).hasDuplicate_eq_false_iff hlen).1 hnodup
    cases ht.symm.trans (exec_tblcommit_duplicate (hcount hlen) (hoor hbytes) (Bool.eq_true_of_not_eq_false hdup))
    exact ⟨loaded_tv values s, rfl⟩
  case commit =>
    intro hlen hbytes hnodup
    have hholds := holdsValues_loaded hlen hbytes s
    have hdup := (hholds.hasDuplicate_eq_false_iff hlen).2 hnodup
    obtain ⟨htv, herr, hsbox, hinverse⟩ := valid_of_exec_tblcommit ht (hcount hlen) (hoor hbytes) hdup
    exact ⟨htv, herr, hinverse, hsbox ▸ hholds⟩

end Sys2Proof.Machine
end

section
/-! What a command does about LASTERR and ERRSEEN (R101 to R103): it reads neither, so what it does can be said for all
values of the two at once. -/

namespace Sys2Proof.Machine

/-- The state with the two error fields of STATUS overwritten. -/
def withErrors (code : BitVec 4) (seen : Bool) (s : State) : State := { s with lastErr := code, errSeen := seen }

/-- `ErrorBlind i s`: whatever LASTERR and ERRSEEN hold beside the rest of `s`, the command `i` completes with the same other
fields and leaves ERRSEEN, or whatever they hold it fails with the same code. -/
inductive ErrorBlind (i : Instr) (s : State) : Prop
  /-- R101. -/
  | completes (done : State)
      (h : ∀ code seen, exec i (withErrors code seen s) = .next (complete (withErrors code seen done)))
  /-- R102. -/
  | fails (e : ErrCode) (h : ∀ code seen, exec i (withErrors code seen s) = .next (raiseErr e s))

theorem ErrorBlind.of_withTable {i : Instr} {s : State} {done : State → State}
    (hexec : ∀ s, exec i s = withTable (done s) s)
    (hdone : ∀ code seen, done (withErrors code seen s) = withErrors code seen (done s)) : ErrorBlind i s := by
  cases htv : s.tv with
  | true =>
    refine .completes (done s) fun code seen => ?_
    rw [hexec, hdone]
    exact withTable_valid _ htv
  | false =>
    refine .fails .noTable fun code seen => ?_
    rw [hexec]
    exact withTable_invalid _ htv

theorem errorBlind_gfinv (a : Byte) (s : State) : ErrorBlind (.gfinv a) s := by
  by_cases ha : a = 0x00#8
  · subst ha; exact .fails .invZero fun _ _ => rfl
  · exact .completes (writeResult (ginv a) s) fun _ _ => exec_gfinv_ne ha _

theorem withErrors_tableCommit (code : BitVec 4) (seen : Bool) (inv : Table) (s : State) :
    withErrors code seen (tableCommit inv s) = tableCommit inv (withErrors code seen s) := rfl

/-- The checks of TBLCOMMIT read TBL_COUNT, OOR and SBOX only, and its inverse table is built from the tables (R113). -/
theorem errorBlind_tblcommit (s : State) : ErrorBlind .tblcommit s := by
  by_cases hcount : s.tblCount = 256#16
  · cases hoor : s.oor with
    | true => exact .fails .outOfRange fun _ _ => exec_tblcommit_range hcount hoor
    | false =>
      cases hdup : hasDuplicate s.sbox with
      | true => exact .fails .duplicateValue fun _ _ => exec_tblcommit_duplicate hcount hoor hdup
      | false =>
        refine .completes (tableCommit (buildInverse s.sbox s.inv) s) fun code seen => ?_
        rw [withErrors_tableCommit]
        exact exec_tblcommit_commit (s := withErrors code seen s) hcount hoor hdup
  · exact .fails .wrongLength fun _ _ => exec_tblcommit_length hcount

theorem errorBlind (i : Instr) (s : State) : ErrorBlind i s := by
  cases i with
  | nop => exact .completes s fun _ _ => rfl
  | gfmul a b => exact .completes (writeResult (gmul a b) s) fun _ _ => rfl
  | gfinv a => exact errorBlind_gfinv a s
  | subbytes => exact .of_withTable exec_subbytes fun _ _ => rfl
  | invsubbytes => exact .of_withTable exec_invsubbytes fun _ _ => rfl
  | shiftrows => exact .completes (writeCipher (shiftRows s.cipher) s) fun _ _ => rfl
  | invshiftrows => exact .completes (writeCipher (invShiftRows s.cipher) s) fun _ _ => rfl
  | mixcolumns => exact .completes (writeCipher (mixColumns s.cipher) s) fun _ _ => rfl
  | invmixcolumns => exact .completes (writeCipher (invMixColumns s.cipher) s) fun _ _ => rfl
  | addroundkey => exact .completes (writeCipher (addRoundKey s.rkey s.cipher) s) fun _ _ => rfl
  | encround => exact .of_withTable exec_encround fun _ _ => rfl
  | decround => exact .of_withTable exec_decround fun _ _ => rfl
  | tblclr => exact .completes (tableClear s) fun _ _ => rfl
  | tblcommit => exact errorBlind_tblcommit s
  | sboxrd a => exact .of_withTable (exec_sboxrd a) fun _ _ => rfl
  | invrd a => exact .of_withTable (exec_invrd a) fun _ _ => rfl

/-- No error has the number of success (R170). -/
theorem errNumber_ne_zero (e : ErrCode) : errNumber e ≠ 0#4 := by cases e <;> decide

/-- Settles O17: the runs of the claim are cases of what the command does for all values of the two fields. A command
that completes has left 0 in LASTERR, one that fails has not. -/
theorem earlierErrorsDoNotMatter : Obligations.EarlierErrorsDoNotMatter := by
  intro i s code seen
  cases errorBlind i s with
  | completes done h =>
    exact ⟨complete (withErrors s.lastErr s.errSeen done), h s.lastErr s.errSeen, h code s.errSeen,
      fun _ => ⟨rfl, h s.lastErr seen⟩, fun hne => absurd rfl hne⟩
  | fails e h =>
    exact ⟨raiseErr e s, h s.lastErr s.errSeen, h code s.errSeen,
      fun hzero => absurd hzero (errNumber_ne_zero e), fun _ => h s.lastErr seen⟩

/-- A CMD input runs its command (R75, R100). -/
theorem perform_cmd_eq_exec (i : Instr) (s : State) : perform (cmd i) s = exec i s :=
  perform_cmd_of_decode (decode_encode i) s

/-- Settles O24: NOP as a command, as the word of zeros, and after a command that failed, whose ERRSEEN it leaves. -/
theorem nopOnlyClearsLasterr : Obligations.NopOnlyClearsLasterr := by
  intro s
  refine ⟨exec_nop s, ?_, ?_⟩
  · have hdecode : decode 0x00000000#32 = .ok .nop := decode_encode .nop
    exact (execute_of_decode hdecode s).trans (exec_nop s)
  · have hfails := (perform_cmd_eq_exec (.gfinv 0x00#8) s).trans (exec_gfinv_zero s)
    have hclears := (perform_cmd_eq_exec .nop (raiseErr .invZero s)).trans (exec_nop _)
    rw [performAll_cons_next hfails, performAll_cons_next hclears]
    rfl

end Sys2Proof.Machine
end

section
/-! The table rules (41_table.md): what one TBL_DATA write leaves (R111), TBLCLR (R112), the checks of TBLCOMMIT and the table
it builds (R113, R114), and the commands that read a table (R115, R116). -/

namespace Sys2Proof.Machine

theorem toNat_countUp (n : BitVec 16) : (countUp n).toNat = min (n.toNat + 1) 0xFFFF := by
  rw [countUp, BitVec.toNat_ofNat]
  omega

theorem tableAppend_oor_eq_or (v : Word) (s : State) :
    (tableAppend v s).oor = (s.oor || decide (255 < v.toNat)) := by
  rw [tableAppend_oor]
  by_cases hv : 255 < v.toNat <;> simp [hv]

/-- A value that fits a byte is stored whole (R111). -/
theorem toNat_tableGet_sbox_tableAppend (v : Word) (s : State) (x : Byte) :
    (tableGet (tableAppend v s).sbox x).toNat =
      if v.toNat ≤ 255 ∧ x.toNat = s.tblCount.toNat then v.toNat else (tableGet s.sbox x).toNat := by
  simp only [tableGet_sbox_tableAppend, eq_comm (a := x.toNat)]
  split
  next hstored => rw [BitVec.toNat_setWidth, Nat.mod_eq_of_lt (by omega)]
  next => rfl

/-- Settles O40: the write is `tableAppend`, read field by field. -/
theorem tableDataWriteAppends : Obligations.TableDataWriteAppends := fun v s =>
  ⟨tableAppend v s, perform_write_tblData v s, rfl, tableAppend_oor_eq_or v s, toNat_countUp s.tblCount,
    toNat_tableGet_sbox_tableAppend v s⟩

/-- Some value stands twice exactly when the table is not injective (R113). -/
theorem hasDuplicate_eq_true_iff (t : Table) :
    hasDuplicate t = true ↔ ∃ x y, x ≠ y ∧ tableGet t x = tableGet t y := by
  rw [← Bool.not_eq_false, hasDuplicate_eq_false_iff]
  push Not
  simp only [and_comm]

/-- Whatever LASTERR held, a command leaves success or a code that is produced (R28, R101, R102). -/
theorem CommandEffect.statusInv {i : Instr} {s t : State} (h : CommandEffect s i t) : t.statusInv := by
  cases h with
  | fails i e => exact statusInv_raiseErr e s
  | _ => exact statusInv_of_lastErr_zero rfl

/-- Settles O42: each check that fails has its answer, and code 4 is none that a command leaves. -/
theorem tblcommitChecksInOrder : Obligations.TblcommitChecksInOrder := by
  intro s
  refine ⟨exec_tblcommit_length, exec_tblcommit_range, fun hcount hoor hdup => ?duplicate, ?missing⟩
  case duplicate => exact exec_tblcommit_duplicate hcount hoor ((hasDuplicate_eq_true_iff _).2 hdup)
  case missing =>
    obtain ⟨t, ht⟩ := exec_tblcommit_answers_next s
    obtain ⟨-, hne, -⟩ := (commandEffect_of_exec ht).statusInv
    exact ⟨t, ht, hne⟩

/-- An injective table has no value twice and, having as many entries as there are bytes, none missing, so TBLCOMMIT of a full
load of one builds the table that undoes it and is undone by it (R114, R117). -/
theorem exec_tblcommit_injective {s : State} (hcount : s.tblCount = 256#16) (hoor : s.oor = false)
    (hinj : ∀ x y, tableGet s.sbox x = tableGet s.sbox y → x = y) :
    ∃ inv, exec .tblcommit s = .next (complete (tableCommit inv s)) ∧ tablesInverse s.sbox inv := by
  have hdup := (hasDuplicate_eq_false_iff s.sbox).2 hinj
  have hmiss := hasMissing_of_hasDuplicate_eq_false hdup
  exact ⟨_, exec_tblcommit_commit hcount hoor hdup, tablesInverse_buildInverse hdup hmiss s.inv⟩

/-- Settles O43: the commit writes INV, TV and LASTERR, and INV is the inverse on both sides. -/
theorem tblcommitBuildsInverse : Obligations.TblcommitBuildsInverse := by
  intro s hcount hoor hinj
  obtain ⟨inv, hcommit, hundo, hundone⟩ := exec_tblcommit_injective hcount hoor hinj
  exact ⟨_, hcommit, rfl, hundo, hundone⟩

/-- Settles O23: each of the six is a command that needs a table, and fails as such commands do. -/
theorem tableCommandsNeedValidTable : Obligations.TableCommandsNeedValidTable := by
  intro s a i htv hi
  obtain rfl | rfl | rfl | rfl | rfl | rfl := hi
  all_goals exact withTable_invalid _ htv

/-- Settles O41: the clearing of the load, then of LASTERR. -/
theorem tblclrStartsLoad : Obligations.TblclrStartsLoad := exec_tblclr

theorem exec_sboxrd_valid {s : State} (htv : s.tv = true) (a : Byte) :
    exec (.sboxrd a) s = .next (complete (writeResult (tableGet s.sbox a) s)) :=
  (exec_sboxrd a s).trans (withTable_valid _ htv)

theorem exec_invrd_valid {s : State} (htv : s.tv = true) (a : Byte) :
    exec (.invrd a) s = .next (complete (writeResult (tableGet s.inv a) s)) :=
  (exec_invrd a s).trans (withTable_valid _ htv)

/-- Settles O45: SBOXRD leaves the tables and TV as they are, so the INVRD after it reads the entry of INV at what SBOXRD
gave, and that is the index. -/
theorem lookupsReadTheTables : Obligations.LookupsReadTheTables := by
  intro s a
  refine ⟨fun htv => ⟨exec_sboxrd_valid htv a, exec_invrd_valid htv a⟩, fun htv => ?invalid, fun htv hinverse => ?undone⟩
  case invalid =>
    exact ⟨tableCommandsNeedValidTable s a _ htv (by simp), tableCommandsNeedValidTable s a _ htv (by simp)⟩
  case undone =>
    obtain ⟨hundo, -⟩ := hinverse
    refine ⟨_, exec_sboxrd_valid htv a, ?_⟩
    have hvalid : (complete (writeResult (tableGet s.sbox a) s)).tv = true := htv
    rw [exec_invrd_valid hvalid, complete_result, complete_inv, writeResult_result, writeResult_inv, hundo]
    rfl

end Sys2Proof.Machine
end

section
/-! The field GF(2^8) (R130, R131): a byte read as a polynomial over GF(2), and as an element of the quotient by the
reduction polynomial. There the loop of `gmul` is the product of the ring. -/

namespace Sys2Proof.Machine

open Polynomial

/-- The polynomial a byte stands for (R130). -/
noncomputable def bytePoly (v : Byte) : (ZMod 2)[X] := ∑ i ∈ Finset.range 8, if v.getLsbD i then X ^ i else 0

/-- The reduction polynomial 0x11B (R130). -/
noncomputable def reduction : (ZMod 2)[X] := X ^ 8 + X ^ 4 + X ^ 3 + X + 1

theorem reduction_monic : reduction.Monic := by
  unfold reduction
  monicity!

theorem degree_reduction : reduction.degree = 8 := by
  unfold reduction
  compute_degree!

theorem coeff_bytePoly (v : Byte) (i : Nat) : (bytePoly v).coeff i = if v.getLsbD i then 1 else 0 := by
  have hterm : ∀ j, (if v.getLsbD j then X ^ j else 0 : (ZMod 2)[X]).coeff i =
      if i = j then if v.getLsbD j then 1 else 0 else 0 := by
    intro j
    split <;> simp [coeff_X_pow]
  simp only [bytePoly, finsetSum_coeff, hterm, Finset.sum_ite_eq, Finset.mem_range]
  split
  next => rfl
  next hi => rw [BitVec.getLsbD_of_ge v i (by omega)]; rfl

theorem coeff_bytePoly_eq_one_iff (v : Byte) (i : Nat) : (bytePoly v).coeff i = 1 ↔ v.getLsbD i = true := by
  simp [coeff_bytePoly]

theorem bytePoly_injective : Function.Injective bytePoly := by
  intro v w h
  apply BitVec.eq_of_getLsbD_eq
  intro i _
  rw [Bool.eq_iff_iff, ← coeff_bytePoly_eq_one_iff, ← coeff_bytePoly_eq_one_iff, h]

theorem degree_bytePoly_lt (v : Byte) : (bytePoly v).degree < reduction.degree := by
  rw [degree_reduction]
  refine (degree_lt_iff_coeff_zero _ 8).2 fun i hi => ?_
  rw [coeff_bytePoly, BitVec.getLsbD_of_ge v i hi]
  rfl

/-- Addition of bytes is `⊕` (R130). -/
theorem bytePoly_xor (v w : Byte) : bytePoly (v ^^^ w) = bytePoly v + bytePoly w := by
  ext i
  rw [coeff_add, coeff_bytePoly, coeff_bytePoly, coeff_bytePoly, BitVec.getLsbD_xor]
  cases v.getLsbD i <;> cases w.getLsbD i <;> decide

theorem bytePoly_zero : bytePoly 0x00#8 = 0 := by simp [bytePoly]

theorem bytePoly_one : bytePoly 0x01#8 = 1 := by simp [bytePoly]

/-- Doubling shifts the bits up, and the carry out of bit 7 is the term x^8 (R130). -/
theorem X_mul_bytePoly (v : Byte) :
    X * bytePoly v = bytePoly (v <<< 1) + if v.getLsbD 7 then X ^ 8 else 0 := by
  have hshift : bytePoly (v <<< 1) = ∑ i ∈ Finset.range 7, if v.getLsbD i then X ^ (i + 1) else 0 := by
    have hlow : (v <<< 1).getLsbD 0 = false := by simp
    have hup : ∀ i ∈ Finset.range 7, (v <<< 1).getLsbD (i + 1) = v.getLsbD i := by
      intro i hi
      have hi : i + 1 < 8 := Nat.succ_lt_succ (Finset.mem_range.1 hi)
      simp [-BitVec.getLsbD_eq_getElem, BitVec.getLsbD_shiftLeft, hi]
    rw [bytePoly, Finset.sum_range_succ', hlow, if_neg Bool.false_ne_true, add_zero]
    exact Finset.sum_congr rfl fun i hi => by rw [hup i hi]
  rw [hshift, bytePoly, Finset.mul_sum, ← Finset.sum_range_succ]
  refine Finset.sum_congr rfl fun i _ => ?_
  rw [mul_ite, mul_zero, pow_succ']

/-- Doubling subtracts the reduction polynomial on a carry, which leaves 0x1B of it (R130). -/
theorem X_mul_bytePoly_eq_xtime (v : Byte) :
    X * bytePoly v = bytePoly (xtime v) + if v.getLsbD 7 then reduction else 0 := by
  have h1B : bytePoly 0x1B#8 = X ^ 4 + X ^ 3 + X + 1 := by
    simp [bytePoly, Finset.sum_range_succ]
    ring
  have hcarry : X ^ 8 = bytePoly 0x1B#8 + reduction := by
    rw [h1B, reduction]
    linear_combination -CharTwo.add_self_eq_zero (X ^ 4 + X ^ 3 + X + 1 : (ZMod 2)[X])
  rw [X_mul_bytePoly, xtime, bytePoly_xor]
  split
  next => rw [hcarry, add_assoc]
  next => rw [bytePoly_zero]; ring

/-- The element of GF(2^8) a byte stands for: its polynomial modulo the reduction polynomial (R130). -/
noncomputable def element (v : Byte) : AdjoinRoot reduction := AdjoinRoot.mk reduction (bytePoly v)

theorem element_injective : Function.Injective element := by
  intro v w h
  have hdvd : reduction ∣ bytePoly (v ^^^ w) := by
    rw [bytePoly_xor, ← CharTwo.sub_eq_add]
    exact AdjoinRoot.mk_eq_mk.1 h
  have hzero := eq_zero_of_dvd_of_degree_lt hdvd (degree_bytePoly_lt _)
  exact BitVec.xor_eq_zero_iff.1 (bytePoly_injective (hzero.trans bytePoly_zero.symm))

theorem element_xor (v w : Byte) : element (v ^^^ w) = element v + element w := by
  rw [element, bytePoly_xor, map_add]; rfl

@[simp] theorem element_zero : element 0x00#8 = 0 := by rw [element, bytePoly_zero, map_zero]

@[simp] theorem element_one : element 0x01#8 = 1 := by rw [element, bytePoly_one, map_one]

theorem element_xtime (v : Byte) : element (xtime v) = AdjoinRoot.root reduction * element v := by
  have hcarry : AdjoinRoot.mk reduction (if v.getLsbD 7 then reduction else 0) = 0 := by
    split
    next => exact AdjoinRoot.mk_self
    next => exact map_zero _
  rw [element, element, ← AdjoinRoot.mk_X, ← map_mul, X_mul_bytePoly_eq_xtime, map_add, hcarry, add_zero]

theorem element_eq_sum (v : Byte) :
    element v = ∑ i ∈ Finset.range 8, if v.getLsbD i then AdjoinRoot.root reduction ^ i else 0 := by
  rw [element, bytePoly, map_sum]
  refine Finset.sum_congr rfl fun i _ => ?_
  rw [apply_ite (AdjoinRoot.mk reduction), map_pow, map_zero, AdjoinRoot.mk_X]

/-- After `n` turns of R131's loop `a` is doubled `n` times and `p` holds the product by the low `n` bits of `b`. -/
theorem element_gmulLoop (a b : Byte) (n : Nat) :
    element ((List.range n).foldl (gmulStep b) (0x00#8, a)).1 =
      (∑ i ∈ Finset.range n, if b.getLsbD i then AdjoinRoot.root reduction ^ i else 0) * element a ∧
    element ((List.range n).foldl (gmulStep b) (0x00#8, a)).2 = AdjoinRoot.root reduction ^ n * element a := by
  induction n with
  | zero => simp
  | succ n ih =>
    obtain ⟨hp, ha⟩ := ih
    rw [List.range_succ, List.foldl_concat, gmulStep, Finset.sum_range_succ, add_mul, ← hp]
    refine ⟨?product, ?doubled⟩
    case product =>
      split
      next => rw [element_xor, ha]
      next => ring
    case doubled => rw [element_xtime, ha, pow_succ', mul_assoc]

/-- `gmul` is the product of the field (R131). -/
@[simp] theorem element_gmul (a b : Byte) : element (gmul a b) = element a * element b := by
  rw [gmul, (element_gmulLoop a b 8).1, ← element_eq_sum, mul_comm]

theorem bytePoly_gmul (a b : Byte) : bytePoly (gmul a b) = (bytePoly a * bytePoly b) %ₘ reduction := by
  have hmk : AdjoinRoot.mk reduction (bytePoly (gmul a b)) = AdjoinRoot.mk reduction (bytePoly a * bytePoly b) := by
    rw [map_mul]
    exact element_gmul a b
  rw [← (modByMonic_eq_self_iff reduction_monic).2 (degree_bytePoly_lt (gmul a b))]
  exact modByMonic_eq_of_dvd_sub reduction_monic (AdjoinRoot.mk_eq_mk.1 hmk)

/-- Settles O26: in the quotient by the reduction polynomial the loop of `gmul` is the product, and the polynomial of a byte
is the one of its class whose degree is below 8. -/
theorem gmulIsPolynomialProduct : Obligations.GmulIsPolynomialProduct := bytePoly_gmul

end Sys2Proof.Machine
end

section
/-! The laws of the field (R131, R133): those of a commutative ring come from the quotient ring. That a nonzero byte can
be inverted comes from the byte 0x03: its powers return to 1 after 255 steps and no sooner, so they are all the nonzero
bytes, and the 255th power of each of these is 1. -/

namespace Sys2Proof.Machine

theorem gmul_zero_right (a : Byte) : gmul a 0x00#8 = 0x00#8 := element_injective (by simp)

theorem gmul_zero_left (a : Byte) : gmul 0x00#8 a = 0x00#8 := element_injective (by simp)

theorem gmul_one_left (a : Byte) : gmul 0x01#8 a = a := element_injective (by simp)

theorem gmul_one_right (a : Byte) : gmul a 0x01#8 = a := element_injective (by simp)

theorem gmul_comm (a b : Byte) : gmul a b = gmul b a :=
  element_injective (by simp only [element_gmul, mul_comm])

theorem gmul_assoc (a b c : Byte) : gmul (gmul a b) c = gmul a (gmul b c) :=
  element_injective (by simp only [element_gmul, mul_assoc])

theorem gmul_xor (a b c : Byte) : gmul a (b ^^^ c) = gmul a b ^^^ gmul a c :=
  element_injective (by simp only [element_gmul, element_xor, mul_add])

theorem xor_gmul (a b c : Byte) : gmul (a ^^^ b) c = gmul a c ^^^ gmul b c :=
  element_injective (by simp only [element_gmul, element_xor, add_mul])

/-- The product of `n` factors `a` (R133). -/
def gpow (a : Byte) (n : Nat) : Byte := (List.replicate n a).foldl gmul 0x01#8

theorem gpow_succ (a : Byte) (n : Nat) : gpow a (n + 1) = gmul (gpow a n) a := by
  rw [gpow, List.replicate_succ', List.foldl_concat, gpow]

@[simp] theorem element_gpow (a : Byte) (n : Nat) : element (gpow a n) = element a ^ n := by
  induction n with
  | zero => simp [gpow]
  | succ n ih => rw [gpow_succ, element_gmul, ih, pow_succ]

theorem element_pow_eq_one_iff (a : Byte) (n : Nat) : element a ^ n = 1 ↔ gpow a n = 0x01#8 := by
  rw [← element_gpow, ← element_one, element_injective.eq_iff]

theorem gpow_three_255 : gpow 0x03#8 255 = 0x01#8 := by decide +kernel

theorem gpow_three_ne_one : ∀ n ∈ [85, 51, 15], gpow 0x03#8 n ≠ 0x01#8 := by decide +kernel

/-- The byte 0x03 generates: 255 is 3 · 5 · 17, and no power by a maximal divisor of it is 1. -/
theorem orderOf_element_three : orderOf (element 0x03#8) = 255 := by
  refine orderOf_eq_of_pow_and_pow_div_prime (by decide) ((element_pow_eq_one_iff _ _).2 gpow_three_255) ?_
  intro p hp hdvd
  rw [Ne, element_pow_eq_one_iff]
  apply gpow_three_ne_one
  have hfactors : p ∈ Nat.primeFactorsList 255 := (Nat.mem_primeFactorsList (by decide)).2 ⟨hp, hdvd⟩
  have h255 : Nat.primeFactorsList 255 = [3, 5, 17] := by simp
  rw [h255] at hfactors
  fin_cases hfactors <;> decide

theorem gpow_three_injOn : Set.InjOn (gpow 0x03#8) (Finset.range 255) := by
  intro m hm n hn h
  apply pow_injOn_Iio_orderOf (x := element 0x03#8)
  · simpa [orderOf_element_three] using hm
  · simpa [orderOf_element_three] using hn
  · simpa using congrArg element h

theorem gpow_three_ne_zero (n : Nat) : gpow 0x03#8 n ≠ 0x00#8 := by
  intro h
  have hpow : element 0x03#8 ^ n = 0 := by rw [← element_gpow, h, element_zero]
  have hone : (element 0x03#8 ^ n) ^ 255 = 1 := by
    rw [← pow_mul, mul_comm, pow_mul, (element_pow_eq_one_iff _ _).2 gpow_three_255, one_pow]
  have h10 : element 0x01#8 = element 0x00#8 := by
    rw [element_one, element_zero, ← hone, hpow, zero_pow (by decide)]
  exact absurd (element_injective h10) (by decide)

/-- The 255 powers of 0x03 are distinct and none is 0, so no nonzero byte is left out. -/
theorem exists_gpow_three_eq {a : Byte} (ha : a ≠ 0x00#8) : ∃ n, gpow 0x03#8 n = a := by
  have hsub : (Finset.range 255).image (gpow 0x03#8) ⊆ Finset.univ.erase 0x00#8 := by
    intro b hb
    obtain ⟨n, -, rfl⟩ := Finset.mem_image.1 hb
    exact Finset.mem_erase.2 ⟨gpow_three_ne_zero n, Finset.mem_univ _⟩
  have hcard : (Finset.univ.erase 0x00#8 : Finset Byte).card ≤ ((Finset.range 255).image (gpow 0x03#8)).card := by
    rw [Finset.card_image_of_injOn gpow_three_injOn, Finset.card_erase_of_mem (Finset.mem_univ _), Finset.card_univ,
      ← FinEnum.card_eq_fintypeCard, FinEnum.card_bitVec, Finset.card_range]
    decide
  have hall := Finset.eq_of_subset_of_card_le hsub hcard
  have hmem : a ∈ (Finset.range 255).image (gpow 0x03#8) := hall ▸ Finset.mem_erase.2 ⟨ha, Finset.mem_univ a⟩
  obtain ⟨n, -, hn⟩ := Finset.mem_image.1 hmem
  exact ⟨n, hn⟩

theorem gpow_255 {a : Byte} (ha : a ≠ 0x00#8) : gpow a 255 = 0x01#8 := by
  obtain ⟨n, rfl⟩ := exists_gpow_three_eq ha
  rw [← element_pow_eq_one_iff, element_gpow, ← pow_mul, mul_comm, pow_mul,
    (element_pow_eq_one_iff _ _).2 gpow_three_255, one_pow]

/-- The 254th power of a nonzero byte is an inverse of it (R133). -/
theorem gmul_gpow_254 {a : Byte} (ha : a ≠ 0x00#8) : gmul a (gpow a 254) = 0x01#8 := by
  rw [gmul_comm, ← gpow_succ, gpow_255 ha]

/-- A nonzero factor can be cancelled. -/
theorem gmul_left_cancel {a b c : Byte} (ha : a ≠ 0x00#8) (h : gmul a b = gmul a c) : b = c := by
  have hundo : ∀ x, gmul (gpow a 254) (gmul a x) = x := fun x => by
    rw [← gmul_assoc, gmul_comm (gpow a 254), gmul_gpow_254 ha, gmul_one_left]
  rw [← hundo b, h, hundo]

theorem eq_zero_or_eq_zero_of_gmul_eq_zero {a b : Byte} (h : gmul a b = 0x00#8) : a = 0x00#8 ∨ b = 0x00#8 :=
  or_iff_not_imp_left.2 fun ha => gmul_left_cancel ha (h.trans (gmul_zero_right a).symm)

/-- Settles O27: the ring laws from the quotient ring, the last from the inverses. -/
theorem gmulFieldLaws : Obligations.GmulFieldLaws :=
  ⟨fun a => ⟨gmul_zero_right a, gmul_zero_left a, gmul_one_left a⟩, gmul_comm,
    fun a b c => (gmul_assoc a b c).symm, gmul_xor, fun _ _ => eq_zero_or_eq_zero_of_gmul_eq_zero⟩

end Sys2Proof.Machine
end

section
/-! The inverse (R133), and the two field commands (R132, R134). -/

namespace Sys2Proof.Machine

theorem gmul_ginv {a : Byte} (ha : a ≠ 0x00#8) : gmul a (ginv a) = 0x01#8 :=
  gmul_ginv_of_exists ⟨_, gmul_gpow_254 ha⟩

theorem ne_zero_of_gmul_eq_one {a x : Byte} (h : gmul a x = 0x01#8) : a ≠ 0x00#8 := by
  rintro rfl
  rw [gmul_zero_left] at h
  exact absurd h (by decide)

theorem eq_ginv_of_gmul_eq_one {a x : Byte} (h : gmul a x = 0x01#8) : x = ginv a :=
  have ha := ne_zero_of_gmul_eq_one h
  gmul_left_cancel ha (h.trans (gmul_ginv ha).symm)

theorem gmul_ginv_self {a : Byte} (ha : a ≠ 0x00#8) : gmul (ginv a) a = 0x01#8 :=
  (gmul_comm _ _).trans (gmul_ginv ha)

theorem ginv_ne_zero {a : Byte} (ha : a ≠ 0x00#8) : ginv a ≠ 0x00#8 := ne_zero_of_gmul_eq_one (gmul_ginv_self ha)

theorem ginv_ginv {a : Byte} (ha : a ≠ 0x00#8) : ginv (ginv a) = a :=
  (eq_ginv_of_gmul_eq_one (gmul_ginv_self ha)).symm

/-- Settles O29: there is an inverse, the 254th power, and a nonzero factor cancels, so there is no other. -/
theorem ginvIsUniqueInverse : Obligations.GinvIsUniqueInverse := fun _ ha =>
  ⟨gmul_ginv ha, fun _ => eq_ginv_of_gmul_eq_one, (eq_ginv_of_gmul_eq_one (gmul_gpow_254 ha)).symm, ginv_ginv ha⟩

/-- In characteristic 2, `a · a = 1` says `(a + 1) · (a + 1) = 0`. -/
theorem gmul_self_eq_one_iff (a : Byte) : gmul a a = 0x01#8 ↔ a = 0x01#8 := by
  refine ⟨fun h => ?_, fun h => by rw [h, gmul_one_left]⟩
  have hsquare : gmul (a ^^^ 0x01#8) (a ^^^ 0x01#8) = 0x00#8 := by
    rw [xor_gmul, gmul_xor, h, gmul_one_right, gmul_one_left, BitVec.xor_comm a, BitVec.xor_self]
  exact BitVec.xor_eq_zero_iff.1 ((eq_zero_or_eq_zero_of_gmul_eq_zero hsquare).elim id id)

/-- Only 1 is its own inverse (R134). -/
theorem ginv_eq_self_iff {a : Byte} (ha : a ≠ 0x00#8) : ginv a = a ↔ a = 0x01#8 := by
  rw [← gmul_self_eq_one_iff]
  exact ⟨fun h => by simpa only [h] using gmul_ginv ha, fun h => (eq_ginv_of_gmul_eq_one h).symm⟩

/-- Settles O28: the inverse is itself nonzero, so GFINV of it completes, and gives the operand. -/
theorem gfinvWritesInverse : Obligations.GfinvWritesInverse := by
  intro a s
  refine ⟨?zero, fun ha => ⟨ginv a, exec_gfinv_ne ha s, gmul_ginv ha, fun _ => eq_ginv_of_gmul_eq_one,
    ginv_eq_self_iff ha, ?back⟩⟩
  case zero =>
    rintro rfl
    exact exec_gfinv_zero s
  case back =>
    rw [exec_gfinv_ne (ginv_ne_zero ha), ginv_ginv ha]
    rfl

/-- Settles O25: the completed state, and the laws of R131 for its corner cases. -/
theorem gfmulWritesProduct : Obligations.GfmulWritesProduct := by
  intro a b s
  refine ⟨_, exec_gfmul a b s, rfl, toNat_readReg_result _, ?zero, ?one⟩ <;> rw [complete_result, writeResult_result]
  case zero =>
    rintro (rfl | rfl)
    · exact gmul_zero_left b
    · exact gmul_zero_right a
  case one =>
    rintro rfl
    exact gmul_one_left b

end Sys2Proof.Machine
end

section
/-! The round transforms on matrices (R140 to R148): which of them undo one another, and what SubBytes and ShiftRows leave
in place. -/

namespace Sys2Proof.Machine

/-- Two words with the same byte lanes are the same (R52). -/
theorem word_eq_of_lane_eq {v w : Word} (h : ∀ r, lane v r = lane w r) : v = w := by
  rw [← packWord_lane v, ← packWord_lane w, h, h, h, h]

theorem lane_xor (v w : Word) (r : Fin 4) : lane (v ^^^ w) r = lane v r ^^^ lane w r := BitVec.extractLsb'_xor

/-- Going through one table and then another that undoes it (R141). -/
theorem subBytes_subBytes_of_undoes {t u : Table} (h : ∀ x, tableGet u (tableGet t x) = x) (m : Columns) :
    subBytes u (subBytes t m) = m :=
  columns_ext fun r c => by rw [matrixByte_subBytes, matrixByte_subBytes, h]

theorem subBytes_of_identity {t : Table} (h : ∀ x, tableGet t x = x) (m : Columns) : subBytes t m = m :=
  columns_ext fun r c => by rw [matrixByte_subBytes, h]

/-- SubBytes works byte by byte and ShiftRows only moves bytes (R148). -/
theorem subBytes_shiftRows (t : Table) (m : Columns) : subBytes t (shiftRows m) = shiftRows (subBytes t m) :=
  columns_ext fun r c => by simp only [matrixByte_subBytes, matrixByte_shiftRows]

theorem shiftRows_of_constant_rows {m : Columns} (h : ∀ r c d, matrixByte m r c = matrixByte m r d) :
    shiftRows m = m :=
  columns_ext fun r c => by rw [matrixByte_shiftRows, h r (c + r) c]

/-- Row 2 goes half way round at a time (R142). -/
theorem matrixByte_shiftRows_twice_row_two (m : Columns) (c : Fin 4) :
    matrixByte (shiftRows (shiftRows m)) 2 c = matrixByte m 2 c := by
  rw [matrixByte_shiftRows, matrixByte_shiftRows, add_assoc]
  exact congrArg (matrixByte m 2) (add_zero c)

/-- Row `r` has gone round `r` times (R142). -/
theorem shiftRows_four_times (m : Columns) : shiftRows (shiftRows (shiftRows (shiftRows m))) = m := by
  have hround : ∀ r c : Fin 4, c + r + r + r + r = c := by decide
  exact columns_ext fun r c => by simp only [matrixByte_shiftRows, hround]

theorem invShiftRows_shiftRows (m : Columns) : invShiftRows (shiftRows m) = m :=
  columns_ext fun r c => by rw [matrixByte_invShiftRows, matrixByte_shiftRows, sub_add_cancel]

theorem shiftRows_invShiftRows (m : Columns) : shiftRows (invShiftRows m) = m :=
  columns_ext fun r c => by rw [matrixByte_shiftRows, matrixByte_invShiftRows, add_sub_cancel_right]

/-- ADDROUNDKEY read by words (R147). -/
theorem getElem_addRoundKey (k m : Columns) (c : Fin 4) : (addRoundKey k m)[c] = m[c] ^^^ k[c] := by
  refine word_eq_of_lane_eq fun r => ?_
  rw [lane_xor]
  exact matrixByte_addRoundKey k m r c

theorem addRoundKey_addRoundKey (k m : Columns) : addRoundKey k (addRoundKey k m) = m :=
  columns_ext fun r c => by
    rw [matrixByte_addRoundKey, matrixByte_addRoundKey, BitVec.xor_assoc, BitVec.xor_self, BitVec.xor_zero]

theorem addRoundKey_of_zero {k : Columns} (h : ∀ c : Fin 4, k[c] = 0#32) (m : Columns) : addRoundKey k m = m := by
  refine Vector.ext fun i hi => ?_
  have hword := getElem_addRoundKey k m ⟨i, hi⟩
  rwa [h, BitVec.xor_zero] at hword

end Sys2Proof.Machine
end

section
/-! MixColumns over the field (R144 to R146): a 4x4 byte matrix is a matrix over GF(2^8), where `mixWith` is the product by
a circulant matrix and `addRoundKey` is the sum. So linearity is the distributive law, and M' undoes M because M' · M = 1. -/

namespace Sys2Proof.Machine

/-- The matrix over GF(2^8) that the columns hold (R24, R130). -/
noncomputable def fieldMatrix (m : Columns) : Matrix (Fin 4) (Fin 4) (AdjoinRoot reduction) :=
  .of fun r c => element (matrixByte m r c)

/-- The circulant matrix of a first row, over GF(2^8) (R144). -/
noncomputable def fieldCirculant (row : Vector Byte 4) : Matrix (Fin 4) (Fin 4) (AdjoinRoot reduction) :=
  .of fun r k => element (circulant row r k)

theorem fieldMatrix_injective : Function.Injective fieldMatrix := fun _ _ h =>
  columns_ext fun r c => element_injective (congrFun (congrFun h r) c)

theorem fieldMatrix_addRoundKey (k m : Columns) : fieldMatrix (addRoundKey k m) = fieldMatrix m + fieldMatrix k := by
  ext r c
  simp only [fieldMatrix, Matrix.of_apply, Matrix.add_apply, matrixByte_addRoundKey, element_xor]

theorem fieldMatrix_mixWith (row : Vector Byte 4) (m : Columns) :
    fieldMatrix (mixWith row m) = fieldCirculant row * fieldMatrix m := by
  ext r c
  simp only [fieldMatrix, fieldCirculant, Matrix.mul_apply, Matrix.of_apply, Fin.sum_univ_four, matrixByte_mixWith,
    element_xor, element_gmul]

/-- MIX(s ⊕ t) = MIX(s) ⊕ MIX(t) (R145). -/
theorem mixWith_addRoundKey (row : Vector Byte 4) (k m : Columns) :
    mixWith row (addRoundKey k m) = addRoundKey (mixWith row k) (mixWith row m) :=
  fieldMatrix_injective (by simp only [fieldMatrix_mixWith, fieldMatrix_addRoundKey, mul_add])

/-- Entry by entry, M' · M = 1, by the arithmetic of R131 (R144). -/
theorem circulant_invMixRow_mul_mixRow : ∀ r k : Fin 4,
    gmul (circulant invMixRow r 0) (circulant mixRow 0 k) ^^^ gmul (circulant invMixRow r 1) (circulant mixRow 1 k)
      ^^^ gmul (circulant invMixRow r 2) (circulant mixRow 2 k) ^^^ gmul (circulant invMixRow r 3) (circulant mixRow 3 k)
      = if r = k then 0x01#8 else 0x00#8 := by decide

theorem fieldCirculant_invMixRow_mul_mixRow : fieldCirculant invMixRow * fieldCirculant mixRow = 1 := by
  ext r k
  have hentry := congrArg element (circulant_invMixRow_mul_mixRow r k)
  rw [apply_ite element, element_one, element_zero] at hentry
  simpa only [fieldCirculant, Matrix.mul_apply, Matrix.one_apply, Matrix.of_apply, Fin.sum_univ_four, element_xor,
    element_gmul] using hentry

theorem mixWith_mixWith_of_inverse {a b : Vector Byte 4} (h : fieldCirculant a * fieldCirculant b = 1) (m : Columns) :
    mixWith a (mixWith b m) = m :=
  fieldMatrix_injective (by rw [fieldMatrix_mixWith, fieldMatrix_mixWith, ← mul_assoc, h, one_mul])

theorem invMixColumns_mixColumns (m : Columns) : invMixColumns (mixColumns m) = m :=
  mixWith_mixWith_of_inverse fieldCirculant_invMixRow_mul_mixRow m

theorem mixColumns_invMixColumns (m : Columns) : mixColumns (invMixColumns m) = m :=
  mixWith_mixWith_of_inverse (mul_eq_one_comm.1 fieldCirculant_invMixRow_mul_mixRow) m

/-- Where every row of the matrix sums to 1, a column of four equal bytes stays (R145, R146). -/
theorem getElem_mixWith_of_constant_column {row : Vector Byte 4} {m : Columns} {c : Fin 4}
    (hrow : ∀ r, circulant row r 0 ^^^ circulant row r 1 ^^^ circulant row r 2 ^^^ circulant row r 3 = 0x01#8)
    (h01 : matrixByte m 0 c = matrixByte m 1 c) (h12 : matrixByte m 1 c = matrixByte m 2 c)
    (h23 : matrixByte m 2 c = matrixByte m 3 c) : (mixWith row m)[c] = m[c] := by
  have hconstant : ∀ r, matrixByte m r c = matrixByte m 3 c := by
    simp only [Fin.forall_fin_succ]
    exact ⟨h01.trans (h12.trans h23), h12.trans h23, h23, rfl, nofun⟩
  refine word_eq_of_lane_eq fun r => (matrixByte_mixWith row m r c).trans ?_
  rw [hconstant 0, hconstant 1, hconstant 2, ← xor_gmul, ← xor_gmul, ← xor_gmul, hrow, gmul_one_left]
  exact (hconstant r).symm

theorem mixRow_rows_sum : ∀ r, circulant mixRow r 0 ^^^ circulant mixRow r 1 ^^^ circulant mixRow r 2
    ^^^ circulant mixRow r 3 = 0x01#8 := by decide

theorem invMixRow_rows_sum : ∀ r, circulant invMixRow r 0 ^^^ circulant invMixRow r 1 ^^^ circulant invMixRow r 2
    ^^^ circulant invMixRow r 3 = 0x01#8 := by decide

/-- Settles O37: both are laws of the matrix functions. -/
theorem transformAlgebra : Obligations.TransformAlgebra :=
  ⟨fun m n => mixWith_addRoundKey invMixRow n m, subBytes_shiftRows⟩

end Sys2Proof.Machine
end

section
/-! The seven transform commands (R140 to R147): each puts the cipher state through one function of matrices, with the tables
and the key it finds, and clears LASTERR. So a sequence of them is the composition of its functions. -/

namespace Sys2Proof.Machine

/-- In `s`, and in every state that differs from it in the cipher state and in LASTERR alone, the command completes and
puts the cipher state through `f`. -/
def Transforms (s : State) (i : Instr) (f : Columns → Columns) : Prop :=
  ∀ (m : Columns) (code : BitVec 4),
    exec i { s with cipher := m, lastErr := code } = .next (complete (writeCipher (f m) s))

theorem transforms_subbytes {s : State} (htv : s.tv = true) : Transforms s .subbytes (subBytes s.sbox) :=
  fun _ _ => (exec_subbytes _).trans (withTable_valid _ htv)

theorem transforms_invsubbytes {s : State} (htv : s.tv = true) : Transforms s .invsubbytes (subBytes s.inv) :=
  fun _ _ => (exec_invsubbytes _).trans (withTable_valid _ htv)

theorem transforms_shiftrows (s : State) : Transforms s .shiftrows shiftRows := fun _ _ => exec_shiftrows _

theorem transforms_invshiftrows (s : State) : Transforms s .invshiftrows invShiftRows := fun _ _ => exec_invshiftrows _

theorem transforms_mixcolumns (s : State) : Transforms s .mixcolumns mixColumns := fun _ _ => exec_mixcolumns _

theorem transforms_invmixcolumns (s : State) : Transforms s .invmixcolumns invMixColumns :=
  fun _ _ => exec_invmixcolumns _

theorem transforms_addroundkey (s : State) : Transforms s .addroundkey (addRoundKey s.rkey) :=
  fun _ _ => exec_addroundkey _

namespace Transforms

variable {s : State} {i j : Instr} {f g : Columns → Columns}

/-- What the command does in the state itself. -/
theorem exec_spec (h : Transforms s i f) :
    ∃ t, exec i s = .next t ∧ s.OnlyCipher t ∧ t.cipher = f s.cipher ∧
      ∀ r c, t.cipherByte r c = matrixByte (f s.cipher) r c :=
  ⟨_, h s.cipher s.lastErr, rfl, rfl, fun _ _ => rfl⟩

/-- A sequence of transforms is the composition of their functions, first command first. -/
theorem performAll_eq (h : Transforms s i f) {is : List Instr} {fs : List (Columns → Columns)}
    (hrest : List.Forall₂ (Transforms s) is fs) (m : Columns) (code : BitVec 4) :
    performAll (cmd i :: is.map cmd) { s with cipher := m, lastErr := code } =
      .next (complete (writeCipher (fs.foldl (fun m f => f m) (f m)) s)) := by
  have hfirst := (perform_cmd_eq_exec i _).trans (h m code)
  induction hrest generalizing i f m code with
  | nil => exact performAll_cons_next hfirst []
  | cons hj _ ih =>
    rw [performAll_cons_next hfirst]
    exact ih hj (f m) 0#4 ((perform_cmd_eq_exec _ _).trans (hj (f m) 0#4))

/-- A transform after one that it undoes only clears LASTERR. -/
theorem performAll_undone (hi : Transforms s i f) (hj : Transforms s j g) (hundo : ∀ m, g (f m) = m) :
    performAll [cmd i, cmd j] s = .next { s with lastErr := 0#4 } := by
  have hpair := hi.performAll_eq (.cons hj .nil) s.cipher s.lastErr
  simp only [List.foldl_cons, List.foldl_nil, hundo] at hpair
  exact hpair

end Transforms

/-- Settles O30: the bytes are those of `subBytes`, and NoTable is the answer of every command that needs a table. -/
theorem subbytesSubstitutesEveryByte : Obligations.SubbytesSubstitutesEveryByte := by
  intro s
  refine ⟨fun htv => ?valid, fun htv => withTable_invalid _ htv⟩
  case valid =>
    obtain ⟨t, ht, honly, hcipher, hbyte⟩ := (transforms_subbytes htv).exec_spec
    exact ⟨t, ht, honly, fun r c => (hbyte r c).trans (matrixByte_subBytes s.sbox s.cipher r c),
      fun hid => hcipher.trans (subBytes_of_identity hid s.cipher)⟩

/-- Settles O31: each half of `tablesInverse` is one order of undoing. -/
theorem invsubbytesUndoesSubbytes : Obligations.InvsubbytesUndoesSubbytes := by
  intro s
  refine ⟨fun htv => ?valid, fun htv => withTable_invalid _ htv, fun htv hinverse => ?undone⟩
  case valid =>
    obtain ⟨t, ht, honly, -, hbyte⟩ := (transforms_invsubbytes htv).exec_spec
    exact ⟨t, ht, honly, fun r c => (hbyte r c).trans (matrixByte_subBytes s.inv s.cipher r c)⟩
  case undone =>
    obtain ⟨hinv, hsbox⟩ := hinverse
    have hsub := transforms_subbytes htv
    have hinvsub := transforms_invsubbytes htv
    exact ⟨hsub.performAll_undone hinvsub (subBytes_subBytes_of_undoes hinv),
      hinvsub.performAll_undone hsub (subBytes_subBytes_of_undoes hsbox)⟩

/-- Settles O32: the index of R142 is addition in `Fin 4`. -/
theorem shiftrowsRotatesLeft : Obligations.ShiftrowsRotatesLeft := by
  intro s
  have hshift := transforms_shiftrows s
  refine ⟨?once, ?twice, ?fourTimes⟩
  case once =>
    obtain ⟨t, ht, honly, hcipher, hbyte⟩ := hshift.exec_spec
    exact ⟨t, ht, honly, fun r c => (hbyte r c).trans (matrixByte_shiftRows s.cipher r c),
      fun hrows => hcipher.trans (shiftRows_of_constant_rows hrows)⟩
  case twice =>
    exact ⟨_, hshift.performAll_eq (.cons hshift .nil) s.cipher s.lastErr,
      matrixByte_shiftRows_twice_row_two s.cipher⟩
  case fourTimes =>
    have hfour := hshift.performAll_eq (.cons hshift (.cons hshift (.cons hshift .nil))) s.cipher s.lastErr
    simp only [List.foldl_cons, List.foldl_nil, shiftRows_four_times] at hfour
    exact hfour

/-- The index of R143 is subtraction in `Fin 4`. -/
theorem mk_mod_four_eq_sub (c r : Fin 4) : (⟨(c.val + (4 - r.val)) % 4, by omega⟩ : Fin 4) = c - r :=
  Fin.ext (congrArg (· % 4) (Nat.add_comm _ _))

/-- Settles O33: in `Fin 4` the two rotations subtract and add the row, which cancel. -/
theorem invshiftrowsRotatesRight : Obligations.InvshiftrowsRotatesRight := by
  intro s
  have hshift := transforms_shiftrows s
  have hinvshift := transforms_invshiftrows s
  refine ⟨?once, hshift.performAll_undone hinvshift invShiftRows_shiftRows,
    hinvshift.performAll_undone hshift shiftRows_invShiftRows⟩
  case once =>
    obtain ⟨t, ht, honly, -, hbyte⟩ := hinvshift.exec_spec
    refine ⟨t, ht, honly, fun r c => ?_⟩
    rw [mk_mod_four_eq_sub, hbyte, matrixByte_invShiftRows]
    rfl

/-- Settles O34: the bytes are those of the product by the circulant matrix, whose rows the statement writes out. -/
theorem mixcolumnsMultipliesByM : Obligations.MixcolumnsMultipliesByM := by
  intro s
  have hmix := transforms_mixcolumns s
  obtain ⟨t, ht, honly, hcipher, hbyte⟩ := hmix.exec_spec
  refine ⟨t, ht, honly, fun n => ⟨_, hmix (addRoundKey n s.cipher) s.lastErr, ?linear⟩, fun c => ?column⟩
  case linear =>
    rw [hcipher]
    exact mixWith_addRoundKey mixRow n s.cipher
  case column =>
    simp only [hbyte, hcipher, mixColumns, matrixByte_mixWith]
    exact ⟨rfl, rfl, rfl, rfl, getElem_mixWith_of_constant_column mixRow_rows_sum⟩

/-- Settles O35: the bytes are those of the product by the circulant matrix, whose rows the statement writes out. -/
theorem invmixcolumnsMultipliesByInverse : Obligations.InvmixcolumnsMultipliesByInverse := by
  intro s
  have hmix := transforms_mixcolumns s
  have hinvmix := transforms_invmixcolumns s
  refine ⟨?once, hmix.performAll_undone hinvmix invMixColumns_mixColumns,
    hinvmix.performAll_undone hmix mixColumns_invMixColumns⟩
  case once =>
    obtain ⟨t, ht, honly, hcipher, hbyte⟩ := hinvmix.exec_spec
    refine ⟨t, ht, honly, fun c => ?_⟩
    simp only [hbyte, hcipher, invMixColumns, matrixByte_mixWith]
    exact ⟨rfl, rfl, rfl, rfl, getElem_mixWith_of_constant_column invMixRow_rows_sum⟩

/-- Settles O36: no transform writes RKEY, so the second xor is with the same key and cancels the first. -/
theorem addroundkeyXorsTheKey : Obligations.AddroundkeyXorsTheKey := by
  intro s
  have hkey := transforms_addroundkey s
  refine ⟨?once, hkey.performAll_undone hkey (addRoundKey_addRoundKey s.rkey)⟩
  case once =>
    obtain ⟨t, ht, honly, hcipher, hbyte⟩ := hkey.exec_spec
    refine ⟨t, ht, honly, fun r c => (hbyte r c).trans (matrixByte_addRoundKey s.rkey s.cipher r c), fun c => ?word,
      fun hzero => hcipher.trans (addRoundKey_of_zero hzero s.cipher)⟩
    case word => rw [hcipher, getElem_addRoundKey]

end Sys2Proof.Machine
end

section
/-! The composite rounds (R160, R161): each is one transform command whose function is the composition of four, and the two
functions undo each other while the tables do. -/

namespace Sys2Proof.Machine

theorem transforms_encround {s : State} (htv : s.tv = true) : Transforms s .encround (encRound s.sbox s.rkey) :=
  fun _ _ => (exec_encround _).trans (withTable_valid _ htv)

theorem transforms_decround {s : State} (htv : s.tv = true) : Transforms s .decround (decRound s.inv s.rkey) :=
  fun _ _ => (exec_decround _).trans (withTable_valid _ htv)

/-- A byte after a round: a row of M times the substituted bytes of a diagonal, and the key's byte (R160). -/
theorem matrixByte_encRound (sbox : Table) (k m : Columns) (r c : Fin 4) :
    matrixByte (encRound sbox k m) r c =
      gmul (circulant mixRow r 0) (tableGet sbox (matrixByte m 0 (c + 0))) ^^^
        gmul (circulant mixRow r 1) (tableGet sbox (matrixByte m 1 (c + 1))) ^^^
        gmul (circulant mixRow r 2) (tableGet sbox (matrixByte m 2 (c + 2))) ^^^
        gmul (circulant mixRow r 3) (tableGet sbox (matrixByte m 3 (c + 3))) ^^^ matrixByte k r c := by
  simp only [encRound, mixColumns, matrixByte_addRoundKey, matrixByte_mixWith, matrixByte_shiftRows, matrixByte_subBytes]

theorem decRound_encRound {sbox inv : Table} (h : ∀ x, tableGet inv (tableGet sbox x) = x) (k m : Columns) :
    decRound inv k (encRound sbox k m) = m := by
  rw [decRound, encRound, addRoundKey_addRoundKey, invMixColumns_mixColumns, invShiftRows_shiftRows,
    subBytes_subBytes_of_undoes h]

theorem encRound_decRound {sbox inv : Table} (h : ∀ y, tableGet sbox (tableGet inv y) = y) (k m : Columns) :
    encRound sbox k (decRound inv k m) = m := by
  rw [encRound, decRound, subBytes_subBytes_of_undoes h, shiftRows_invShiftRows, mixColumns_invMixColumns,
    addRoundKey_addRoundKey]

/-- Settles O38: the four commands in order are the composition of their functions, which is the function of the round. -/
theorem encroundAppliesFourTransforms : Obligations.EncroundAppliesFourTransforms := by
  intro s
  refine ⟨fun htv => ?valid, fun htv => withTable_invalid _ htv⟩
  case valid =>
    have hround := transforms_encround htv s.cipher s.lastErr
    have hfour := (transforms_subbytes htv).performAll_eq (.cons (transforms_shiftrows s)
      (.cons (transforms_mixcolumns s) (.cons (transforms_addroundkey s) .nil))) s.cipher s.lastErr
    exact ⟨_, hround, rfl, matrixByte_encRound s.sbox s.rkey s.cipher, hfour⟩

/-- Settles O39: the composition of the four inverse transforms, and the two orders of undoing from the two halves of
`tablesInverse`. -/
theorem decroundUndoesEncround : Obligations.DecroundUndoesEncround := by
  intro s
  refine ⟨fun htv => ?valid, fun htv => withTable_invalid _ htv, fun htv hinverse => ?undone⟩
  case valid =>
    have hround := transforms_decround htv s.cipher s.lastErr
    have hfour := (transforms_addroundkey s).performAll_eq (.cons (transforms_invmixcolumns s)
      (.cons (transforms_invshiftrows s) (.cons (transforms_invsubbytes htv) .nil))) s.cipher s.lastErr
    exact ⟨_, hround, rfl, hfour⟩
  case undone =>
    obtain ⟨hinv, hsbox⟩ := hinverse
    have henc := transforms_encround htv
    have hdec := transforms_decround htv
    exact ⟨henc.performAll_undone hdec (decRound_encRound hinv s.rkey),
      hdec.performAll_undone henc (encRound_decRound hsbox s.rkey)⟩

end Sys2Proof.Machine
end

section
/-! Byte strings and blocks on the host's side (R162, R165, R166): cutting a byte string of whole blocks and concatenating
blocks undo each other, and the padding is what `unpad` accepts and removes. -/

namespace Sys2Proof.Machine

@[simp] theorem bytesOf_nil : bytesOf [] = [] := rfl

@[simp] theorem bytesOf_cons (b : Block) (bs : List Block) : bytesOf (b :: bs) = b.toList ++ bytesOf bs := rfl

theorem length_bytesOf (bs : List Block) : (bytesOf bs).length = 16 * bs.length := by
  induction bs with
  | nil => rfl
  | cons b bs ih => rw [bytesOf_cons, List.length_append, Vector.length_toList, ih, List.length_cons]; omega

/-- The first 16 bytes of a byte string, as a block (R165). -/
def firstBlock (bytes : List Byte) (h : 16 ≤ bytes.length) : Block := Vector.ofFn fun j : Fin 16 => bytes[j.val]

theorem splitBlocks_succ {bytes : List Byte} (h : 16 ≤ bytes.length) (n : Nat) :
    splitBlocks (n + 1) bytes = firstBlock bytes h :: splitBlocks n (bytes.drop 16) := dif_pos h

theorem toList_firstBlock {bytes : List Byte} (h : 16 ≤ bytes.length) : (firstBlock bytes h).toList = bytes.take 16 :=
  List.ext_getElem (by simp [h]) fun i _ _ => by simp [firstBlock]

theorem firstBlock_append (b : Block) (rest : List Byte) (h : 16 ≤ (b.toList ++ rest).length) :
    firstBlock (b.toList ++ rest) h = b :=
  Vector.ext fun i hi => by simp [firstBlock]

theorem bytesOf_splitBlocks {n : Nat} {bytes : List Byte} (h : bytes.length = 16 * n) :
    bytesOf (splitBlocks n bytes) = bytes := by
  induction n generalizing bytes with
  | zero => exact (List.eq_nil_of_length_eq_zero h).symm
  | succ n ih =>
    have hrest : (bytes.drop 16).length = 16 * n := by rw [List.length_drop]; omega
    rw [splitBlocks_succ (by omega), bytesOf_cons, toList_firstBlock, ih hrest, List.take_append_drop]

theorem splitBlocks_bytesOf (bs : List Block) : splitBlocks bs.length (bytesOf bs) = bs := by
  induction bs with
  | nil => rfl
  | cons b bs ih =>
    have hlen : 16 ≤ (b.toList ++ bytesOf bs).length := by simp
    have hdrop : (b.toList ++ bytesOf bs).drop 16 = bytesOf bs := List.drop_left' b.length_toList
    rw [bytesOf_cons, List.length_cons, splitBlocks_succ hlen, firstBlock_append, hdrop, ih]

theorem bytesOf_blocksOf {bytes : List Byte} (h : bytes.length % 16 = 0) : bytesOf (blocksOf bytes) = bytes :=
  bytesOf_splitBlocks (by omega)

theorem blocksOf_bytesOf (bs : List Block) : blocksOf (bytesOf bs) = bs := by
  rw [blocksOf, length_bytesOf, Nat.mul_div_cancel_left _ (by decide), splitBlocks_bytesOf]

theorem padLength_bounds (length : Nat) :
    1 ≤ padLength length ∧ padLength length ≤ 16 ∧ padLength length + length % 16 = 16 := by
  unfold padLength; omega

theorem length_pad (message : List Byte) : (pad message).length = message.length + padLength message.length := by
  rw [pad, List.length_append, List.length_replicate]

theorem length_pad_mod (message : List Byte) : (pad message).length % 16 = 0 := by
  have hbounds := padLength_bounds message.length
  rw [length_pad]; omega

/-- Every message, the empty one too, is padded (R165). -/
theorem length_pad_pos (message : List Byte) : 0 < (pad message).length := by
  have hbounds := padLength_bounds message.length
  rw [length_pad]; omega

theorem bytesOf_blocksOf_pad (message : List Byte) : bytesOf (blocksOf (pad message)) = pad message :=
  bytesOf_blocksOf (length_pad_mod message)

/-- Settles O54: the `n` is `padLength`, and the padded bytes are whole blocks. -/
theorem paddingFillsTheBlock : Obligations.PaddingFillsTheBlock := fun message =>
  have ⟨hpos, hle, hfill⟩ := padLength_bounds message.length
  ⟨padLength message.length, hpos, hle, hfill, rfl, length_pad_mod message, bytesOf_blocksOf_pad message⟩

/-- `unpad` answers one of two ways (R166). -/
theorem unpad_cases (padded : List Byte) :
    (∃ message, unpad padded = .ok message) ∨ unpad padded = .error .paddingError := by
  unfold unpad
  cases padded.getLast? with
  | none => exact .inr rfl
  | some last =>
    dsimp only
    split
    · exact .inl ⟨_, rfl⟩
    · exact .inr rfl

/-- The bytes of a correct padding are removed (R166). -/
theorem unpad_append_replicate {n : Nat} (hpos : 1 ≤ n) (hle : n ≤ 16) (message : List Byte) :
    unpad (message ++ List.replicate n (BitVec.ofNat 8 n)) = .ok message := by
  have hlast : (message ++ List.replicate n (BitVec.ofNat 8 n)).getLast? = some (BitVec.ofNat 8 n) := by
    simp [List.getLast?_append, List.getLast?_replicate, Nat.ne_of_gt hpos]
  have hn : (BitVec.ofNat 8 n).toNat = n := Nat.mod_eq_of_lt (by omega)
  simp [unpad, hlast, hn, hpos, hle]

/-- Only a correct padding is removed: the bytes taken off all equal the last, which is their number (R166). -/
theorem eq_append_replicate_of_unpad {padded message : List Byte} (h : unpad padded = .ok message) :
    ∃ n : Nat, 1 ≤ n ∧ n ≤ 16 ∧ padded = message ++ List.replicate n (BitVec.ofNat 8 n) := by
  unfold unpad at h
  cases hlast : padded.getLast? with
  | none => simp [hlast] at h
  | some last =>
    simp only [hlast] at h
    split at h
    case isFalse => cases h
    case isTrue hpad =>
      obtain ⟨hpos, hle, hlen, hall⟩ := hpad
      have htail : padded.drop (padded.length - last.toNat) = List.replicate last.toNat (BitVec.ofNat 8 last.toNat) := by
        refine List.eq_replicate_iff.2 ⟨by rw [List.length_drop]; omega, fun v hv => ?_⟩
        rw [BitVec.ofNat_toNat, BitVec.setWidth_eq]
        exact beq_iff_eq.1 (List.all_eq_true.1 hall v hv)
      cases h
      exact ⟨last.toNat, hpos, hle, by rw [← htail, List.take_append_drop]⟩

/-- Settles O55: both directions of acceptance, and the one other answer. -/
theorem unpadAcceptsExactlyPadding : Obligations.UnpadAcceptsExactlyPadding := by
  intro padded
  refine ⟨fun message => ⟨eq_append_replicate_of_unpad, ?accepted⟩, fun hnone => ?refused⟩
  case accepted =>
    rintro ⟨n, hpos, hle, rfl⟩
    exact unpad_append_replicate hpos hle message
  case refused =>
    obtain ⟨message, hok⟩ | herror := unpad_cases padded
    · exact absurd hok (hnone message)
    · exact herror

theorem unpad_pad (message : List Byte) : unpad (pad message) = .ok message :=
  have ⟨hpos, hle, _⟩ := padLength_bounds message.length
  unpad_append_replicate hpos hle message

/-- Settles O53: byte `16 i + j` of the stretched key is byte `j` of round key `i`. -/
theorem roundKeysCutTheStretchedKey : Obligations.RoundKeysCutTheStretchedKey := by
  intro p key
  refine ⟨by rw [roundKeys, List.length_map, List.length_finRange], ?_⟩
  have hbytes : (p.keyStretch key p.rounds).toList = List.ofFn fun i => (p.keyStretch key p.rounds)[i.val] := by
    rw [← Vector.toList_ofFn, Vector.ofFn_getElem]
  rw [hbytes, List.ofFn_mul, List.ofFn_eq_map, bytesOf, roundKeys, List.flatMap_def, List.map_map]
  refine congrArg List.flatten (List.map_congr_left fun i _ => ?_)
  rw [Function.comp_apply, Vector.toList_ofFn]
  exact congrArg List.ofFn (funext fun j => by simp only [Nat.mul_comm 16 i.val])

end Sys2Proof.Machine
end

section
/-! The host's procedures on one block (R162 to R164). Encryption and decryption are one procedure, `roundsBlock`, with the
command of a round as its argument; with the tables of the block fixed it computes a function of blocks. -/

namespace Sys2Proof.Machine

/-- The block has a valid table, and it is these two (R26, R27). -/
structure State.HoldsTables (sbox inv : Table) (s : State) : Prop where
  tv : s.tv = true
  sbox_eq : s.sbox = sbox
  inv_eq : s.inv = inv

theorem performAll_singleton (i : Input) (s : State) : performAll [i] s = perform i s := by
  rw [performAll]
  cases perform i s <;> rfl

/-- Four column writes replace a matrix whole. -/
theorem set_four_columns (m n : Columns) :
    (((m.set 0 n[0]).set 1 n[1]).set 2 n[2]).set 3 n[3] = n := by
  refine Vector.ext fun i hi => ?_
  simp only [Vector.getElem_set]
  split_ifs with h3 h2 h1 h0
  · subst h3; rfl
  · subst h2; rfl
  · subst h1; rfl
  · subst h0; rfl
  · omega

/-- LOADSTATE (R76). -/
theorem performAll_loadState (b : Block) (s : State) : performAll (loadState b) s = .next (writeCipher (ofBlock b) s) := by
  rw [← set_four_columns s.cipher (ofBlock b)]
  simp only [loadState, performAll, perform_wr, writeReg]
  rfl

/-- LOADKEY (R76). -/
theorem performAll_loadKey (k : Block) (s : State) :
    performAll (loadKey k) s = .next { s with rkey := ofBlock k } := by
  rw [← set_four_columns s.rkey (ofBlock k)]
  simp only [loadKey, performAll, perform_wr, writeReg]
  rfl

/-- The host has read the four columns of the cipher state, and nothing else has changed (R57). -/
def afterReadState (s : State) : State :=
  { s with returned := s.cipher[3] :: s.cipher[2] :: s.cipher[1] :: s.cipher[0] :: s.returned }

/-- READSTATE (R76). -/
theorem hostReadState_eq (s : State) : hostReadState s = .ok (afterReadState s, toBlock s.cipher) := by
  have hcolumns : #v[s.cipher[0], s.cipher[1], s.cipher[2], s.cipher[3]] = s.cipher :=
    set_four_columns #v[0#32, 0#32, 0#32, 0#32] s.cipher
  rw [← congrArg toBlock hcolumns]
  simp only [hostReadState, hostRead_eq]
  rfl

/-- The inputs of one round: the round key, then the command (R163, R164). -/
def roundInputs (i : Instr) (k : Block) : List Input := loadKey k ++ [cmd i]

/-- One block through a round for each key (R163, R164). -/
def roundsBlock (i : Instr) (keys : List Block) (b : Block) (s : State) : Except HostError (State × Block) := do
  let s ← hostResult (performAll (loadState b ++ keys.flatMap (roundInputs i)) s)
  hostReadState s

theorem hostEncryptBlock_eq (keys : List Block) : hostEncryptBlock keys = roundsBlock .encround keys := rfl

theorem hostDecryptBlock_eq (keys : List Block) : hostDecryptBlock keys = roundsBlock .decround keys.reverse := rfl

theorem performAll_roundInputs (i : Instr) (k : Block) (s : State) :
    performAll (roundInputs i k) s = exec i { s with rkey := ofBlock k } := by
  rw [roundInputs, performAll_append_next (performAll_loadKey k s), performAll_singleton, perform_cmd_eq_exec]

theorem roundsBlock_of_performAll {i : Instr} {keys : List Block} {b : Block} {s t : State}
    (h : performAll (keys.flatMap (roundInputs i)) (writeCipher (ofBlock b) s) = .next t) :
    roundsBlock i keys b s = hostReadState t := by
  rw [roundsBlock, performAll_append_next (performAll_loadState b s), h]
  rfl

/-- The procedure always answers a block, with or without a valid table: no access of it is refused or faults (R163). -/
theorem roundsBlock_answers (i : Instr) (keys : List Block) (b : Block) (s : State) :
    ∃ t c, roundsBlock i keys b s = .ok (t, c) := by
  have hrounds : ∀ u, ∃ t, performAll (keys.flatMap (roundInputs i)) u = .next t := by
    induction keys with
    | nil => exact fun u => ⟨u, rfl⟩
    | cons k keys ih =>
      intro u
      obtain ⟨v, hv⟩ := exec_answers_next i { u with rkey := ofBlock k }
      rw [List.flatMap_cons, performAll_append_next ((performAll_roundInputs i k u).trans hv)]
      exact ih v
  obtain ⟨t, ht⟩ := hrounds (writeCipher (ofBlock b) s)
  exact ⟨_, _, (roundsBlock_of_performAll ht).trans (hostReadState_eq t)⟩

section
variable {sbox inv : Table} {i : Instr} {f g : Columns → Columns → Columns}

/-- With these tables the command completes and puts the cipher state through `f` of the round key. -/
def RoundCommand (sbox inv : Table) (i : Instr) (f : Columns → Columns → Columns) : Prop :=
  ∀ s : State, s.HoldsTables sbox inv → exec i s = .next (complete (writeCipher (f s.rkey s.cipher) s))

theorem roundCommand_encround (sbox inv : Table) : RoundCommand sbox inv .encround (encRound sbox) := by
  rintro s ⟨htv, rfl, -⟩
  exact transforms_encround htv s.cipher s.lastErr

theorem roundCommand_decround (sbox inv : Table) : RoundCommand sbox inv .decround (decRound inv) := by
  rintro s ⟨htv, -, rfl⟩
  exact transforms_decround htv s.cipher s.lastErr

/-- A round for each key is the composition of the rounds' functions, first key first. -/
theorem performAll_rounds (hround : RoundCommand sbox inv i f) (keys : List Block) {s : State}
    (h : s.HoldsTables sbox inv) :
    ∃ t, performAll (keys.flatMap (roundInputs i)) s = .next t ∧ t.HoldsTables sbox inv ∧
      t.cipher = keys.foldl (fun m k => f (ofBlock k) m) s.cipher := by
  induction keys generalizing s with
  | nil => exact ⟨s, rfl, h, rfl⟩
  | cons k keys ih =>
    have hcommand := hround { s with rkey := ofBlock k } ⟨h.tv, h.sbox_eq, h.inv_eq⟩
    have hfirst := (performAll_roundInputs i k s).trans hcommand
    rw [List.flatMap_cons, performAll_append_next hfirst]
    exact ih ⟨h.tv, h.sbox_eq, h.inv_eq⟩

/-- With these tables the procedure answers the block `g b` for the block `b`, and keeps the tables. -/
def ComputesBlock (sbox inv : Table) (procedure : Block → State → Except HostError (State × Block))
    (g : Block → Block) : Prop :=
  ∀ (b : Block) (s : State), s.HoldsTables sbox inv →
    ∃ t, procedure b s = .ok (t, g b) ∧ t.HoldsTables sbox inv

/-- The block after a round for each key, first key first. -/
def throughRounds (f : Columns → Columns → Columns) (keys : List Block) (b : Block) : Block :=
  toBlock (keys.foldl (fun m k => f (ofBlock k) m) (ofBlock b))

theorem roundsBlock_computes (hround : RoundCommand sbox inv i f) (keys : List Block) :
    ComputesBlock sbox inv (roundsBlock i keys) (throughRounds f keys) := by
  intro b s h
  have hloaded : (writeCipher (ofBlock b) s).HoldsTables sbox inv := ⟨h.tv, h.sbox_eq, h.inv_eq⟩
  obtain ⟨t, ht, hkeeps, hcipher⟩ := performAll_rounds hround keys hloaded
  refine ⟨afterReadState t, ?_, hkeeps.tv, hkeeps.sbox_eq, hkeeps.inv_eq⟩
  rw [roundsBlock_of_performAll ht, hostReadState_eq, hcipher]
  rfl

theorem hostEncryptBlock_computes (sbox inv : Table) (keys : List Block) :
    ComputesBlock sbox inv (hostEncryptBlock keys) (throughRounds (encRound sbox) keys) :=
  roundsBlock_computes (roundCommand_encround sbox inv) keys

theorem hostDecryptBlock_computes (sbox inv : Table) (keys : List Block) :
    ComputesBlock sbox inv (hostDecryptBlock keys) (throughRounds (decRound inv) keys.reverse) :=
  roundsBlock_computes (roundCommand_decround sbox inv) keys.reverse

/-- Rounds are undone last one first. -/
theorem throughRounds_reverse_leftInverse (hundo : ∀ k m, g k (f k m) = m) (keys : List Block) :
    Function.LeftInverse (throughRounds g keys.reverse) (throughRounds f keys) := by
  intro b
  have hrounds : ∀ m, keys.foldr (fun k m => g (ofBlock k) m) (keys.foldl (fun m k => f (ofBlock k) m) m) = m := by
    induction keys with
    | nil => exact fun _ => rfl
    | cons k keys ih => exact fun m => by rw [List.foldr_cons, List.foldl_cons, ih, hundo]
  rw [throughRounds, throughRounds, ofBlock_toBlock, List.foldl_reverse, hrounds, toBlock_ofBlock]

end

/-- Settles O57: both procedures compute functions of blocks, and the second undoes the first because DECROUND's function
undoes ENCROUND's. -/
theorem blockRoundTrip : Obligations.BlockRoundTrip := by
  intro keys b s htv ⟨hinv, _⟩
  obtain ⟨s1, henc, hs1⟩ := hostEncryptBlock_computes s.sbox s.inv keys b s ⟨htv, rfl, rfl⟩
  obtain ⟨s2, hdec, -⟩ := hostDecryptBlock_computes s.sbox s.inv keys _ s1 hs1
  rw [(throughRounds_reverse_leftInverse (decRound_encRound hinv) keys).eq] at hdec
  exact ⟨s1, _, s2, henc, hdec⟩

end Sys2Proof.Machine
end

section
/-! The host's procedures on messages (R165 to R167): the blocks one after another, with what the procedures refuse first. -/

namespace Sys2Proof.Machine

theorem hostEachBlock_cons {procedure : Block → State → Except HostError (State × Block)} {b c : Block}
    {rest blocks : List Block} {s t u : State} (hfirst : procedure b s = .ok (t, c))
    (hrest : hostEachBlock procedure rest t = .ok (u, blocks)) :
    hostEachBlock procedure (b :: rest) s = .ok (u, c :: blocks) := by
  rw [hostEachBlock, hfirst]
  change (hostEachBlock procedure rest t >>= _) = _
  rw [hrest]
  rfl

/-- A procedure that computes a function of blocks computes it of each block of a list. -/
theorem hostEachBlock_computes {sbox inv : Table} {procedure : Block → State → Except HostError (State × Block)}
    {g : Block → Block} (h : ComputesBlock sbox inv procedure g) (blocks : List Block) {s : State}
    (hs : s.HoldsTables sbox inv) :
    ∃ t, hostEachBlock procedure blocks s = .ok (t, blocks.map g) ∧ t.HoldsTables sbox inv := by
  induction blocks generalizing s with
  | nil => exact ⟨s, rfl, hs⟩
  | cons b blocks ih =>
    obtain ⟨t, hfirst, ht⟩ := h b s hs
    obtain ⟨u, hrest, hu⟩ := ih ht
    exact ⟨u, hostEachBlock_cons hfirst hrest, hu⟩

theorem hostEncrypt_nil_key (p : Params) (message : List Byte) (s : State) :
    hostEncrypt p [] message s = .error .emptyKey := rfl

theorem hostDecrypt_nil_key (p : Params) (ciphertext : List Byte) (s : State) :
    hostDecrypt p [] ciphertext s = .error .emptyKey := rfl

theorem hostDecrypt_wrong_length (p : Params) {key ciphertext : List Byte} (hkey : key ≠ [])
    (hlength : ciphertext = [] ∨ ciphertext.length % 16 ≠ 0) (s : State) :
    hostDecrypt p key ciphertext s = .error .paddingError := by
  rw [hostDecrypt, if_neg hkey, if_pos hlength]
  rfl

theorem hostEncrypt_of_blocks {p : Params} {key message : List Byte} {s t : State} {blocks : List Block}
    (hkey : key ≠ [])
    (h : hostEachBlock (hostEncryptBlock (roundKeys p key)) (blocksOf (pad message)) s = .ok (t, blocks)) :
    hostEncrypt p key message s = .ok (t, bytesOf blocks) := by
  rw [hostEncrypt, if_neg hkey, h]
  rfl

theorem hostDecrypt_of_blocks {p : Params} {key message : List Byte} {s t : State} {cipherBlocks blocks : List Block}
    (hkey : key ≠ []) (hcipher : cipherBlocks ≠ [])
    (h : hostEachBlock (hostDecryptBlock (roundKeys p key)) cipherBlocks s = .ok (t, blocks))
    (hpadding : unpad (bytesOf blocks) = .ok message) :
    hostDecrypt p key (bytesOf cipherBlocks) s = .ok (t, message) := by
  have hlength : ¬ (bytesOf cipherBlocks = [] ∨ (bytesOf cipherBlocks).length % 16 ≠ 0) := by
    have hpos := List.length_pos_of_ne_nil hcipher
    rw [← List.length_eq_zero_iff, length_bytesOf]
    omega
  rw [hostDecrypt, if_neg hkey, if_neg hlength, blocksOf_bytesOf, h]
  change (unpad (bytesOf blocks) >>= _) = _
  rw [hpadding]
  rfl

/-- Settles O56: an empty key first, and then the length of the ciphertext. -/
theorem hostProceduresRefuse : Obligations.HostProceduresRefuse := by
  intro p key bytes s
  refine ⟨?emptyKey, fun hkey hlength => hostDecrypt_wrong_length p hkey hlength s⟩
  case emptyKey =>
    rintro rfl
    exact ⟨hostEncrypt_nil_key p bytes s, hostDecrypt_nil_key p bytes s⟩

theorem blocksOf_pad_ne_nil (message : List Byte) : blocksOf (pad message) ≠ [] := by
  intro hnil
  have hbytes := bytesOf_blocksOf_pad message
  rw [hnil, bytesOf_nil] at hbytes
  exact absurd (length_pad_pos message) (by simp [← hbytes])

/-- Settles O58: each block goes there and back, the blocks give the padded message back, and the padding is removed. -/
theorem messageRoundTrip : Obligations.MessageRoundTrip := by
  intro p key message s hkey htv ⟨hinv, _⟩
  obtain ⟨s1, henc, hs1⟩ := hostEachBlock_computes (hostEncryptBlock_computes s.sbox s.inv (roundKeys p key))
    (blocksOf (pad message)) ⟨htv, rfl, rfl⟩
  obtain ⟨s2, hdec, -⟩ := hostEachBlock_computes (hostDecryptBlock_computes s.sbox s.inv (roundKeys p key)) _ hs1
  have hundone := throughRounds_reverse_leftInverse (decRound_encRound hinv) (roundKeys p key)
  rw [List.map_map, hundone.comp_eq_id, List.map_id] at hdec
  refine ⟨s1, _, s2, hostEncrypt_of_blocks hkey henc, hostDecrypt_of_blocks hkey ?blocks hdec ?padding⟩
  case blocks => exact fun hnil => blocksOf_pad_ne_nil message (List.map_eq_nil_iff.1 hnil)
  case padding => rw [bytesOf_blocksOf_pad, unpad_pad]

theorem blocksOf_pad_nil : blocksOf (pad []) = [Vector.replicate 16 0x10#8] := by decide

/-- Settles O59: the padded empty plaintext is one block, and the procedure on a block always answers. -/
theorem emptyPlaintextIsOneBlock : Obligations.EmptyPlaintextIsOneBlock := by
  intro p key s hkey
  obtain ⟨s1, b, hblock⟩ := roundsBlock_answers .encround (roundKeys p key) (Vector.replicate 16 0x10#8) s
  rw [← hostEncryptBlock_eq] at hblock
  have heach : hostEachBlock (hostEncryptBlock (roundKeys p key)) (blocksOf (pad [])) s = .ok (s1, [b]) := by
    rw [blocksOf_pad_nil]
    exact hostEachBlock_cons hblock rfl
  have hencrypt := hostEncrypt_of_blocks hkey heach
  rw [bytesOf_cons, bytesOf_nil, List.append_nil] at hencrypt
  exact ⟨s1, b, hblock, hencrypt, b.length_toList⟩

end Sys2Proof.Machine
end

section
/-! Errors (60_exceptions.md): a failing command is precise (R178), ERRSEEN is sticky (R179), and codes 4 and 5 are never
produced (R174). -/

namespace Sys2Proof.Machine

/-- Settles O16: a command that completes has 0 in LASTERR and its old ERRSEEN, and one that fails is `raise Err(code)`, which
writes the two error fields only. -/
theorem failingCommandsChangeStatusOnly : Obligations.FailingCommandsChangeStatusOnly := by
  intro i s
  cases errorBlind i s with
  | completes done h => exact ⟨_, h s.lastErr s.errSeen, .inl ⟨rfl, rfl⟩⟩
  | fails e h => exact ⟨_, h s.lastErr s.errSeen, .inr ⟨errNumber_ne_zero e, rfl⟩⟩

/-- ERRSEEN is sticky under every command, failing or not. -/
theorem CommandEffect.errSeen_of_errSeen {i : Instr} {s t : State} (h : CommandEffect s i t) (hs : s.errSeen = true) :
    t.errSeen = true := by
  cases h with
  | fails i e => rfl
  | _ => exact hs

theorem getLsbD_of_writeStatus_clears {v : Word} {s : State} (hs : s.errSeen = true)
    (ht : (writeStatus v s).errSeen = false) : v.getLsbD 8 = true := by
  simpa [hs] using ht

/-- What a command does to ERRSEEN, told by the LASTERR it leaves (R101, R102). -/
theorem errSeen_of_exec {i : Instr} {s t : State} (h : exec i s = .next t) :
    (t.lastErr ≠ 0#4 → t.errSeen = true) ∧ (t.lastErr = 0#4 → t.errSeen = s.errSeen) := by
  obtain ⟨_, hexec, hcases⟩ := failingCommandsChangeStatusOnly i s
  cases h.symm.trans hexec
  obtain ⟨hzero, hkept⟩ | ⟨hne, hset⟩ := hcases
  · exact ⟨fun hne => absurd hzero hne, fun _ => hkept⟩
  · exact ⟨fun _ => congrArg State.errSeen hset, fun hzero => absurd hzero hne⟩

/-- A command does not read the LASTERR of the one before, and overwrites it (R101, R102). -/
theorem exec_withLastErr {i : Instr} {s t : State} (h : exec i s = .next t) (code : BitVec 4) :
    exec i { s with lastErr := code } = .next t := by
  obtain ⟨_, hexec, hcode, -⟩ := earlierErrorsDoNotMatter i s code s.errSeen
  cases h.symm.trans hexec
  exact hcode

/-- Settles O18: of the listed effects of an input, only a STATUS write with bit 8 set and reset lower ERRSEEN. -/
theorem errseenStaysUntilCleared : Obligations.ErrseenStaysUntilCleared := by
  refine ⟨fun i s t h hs ht => ?falls, fun i s t h => ?commands⟩
  case falls =>
    cases inputEffect_of_perform h with
    | status v => exact .inl ⟨v, getLsbD_of_writeStatus_clears hs ht, rfl⟩
    | reset => exact .inr rfl
    | illegal w => cases ht
    | command hc => exact absurd (ht.symm.trans (hc.errSeen_of_errSeen hs)) Bool.false_ne_true
    | _ => exact absurd (ht.symm.trans hs) Bool.false_ne_true
  case commands =>
    obtain ⟨hset, hkept⟩ := errSeen_of_exec h
    exact ⟨hset, hkept, exec_withLastErr h⟩

/-- Settles O44: no value can be missing when none stands twice, so TBLCOMMIT always answers, and as every command it leaves
a code that is produced. -/
theorem tblcommitNeverFaults : Obligations.TblcommitNeverFaults := by
  intro s
  obtain ⟨t, ht⟩ := exec_tblcommit_answers_next s
  obtain ⟨-, hne_four, hne_five⟩ := (commandEffect_of_exec ht).statusInv
  exact ⟨t, ht, hne_four, hne_five⟩

end Sys2Proof.Machine
end

section
/-! Reset (70_reset_and_hazards.md): what it leaves in the registers (R190), and that no run from it lets the host observe
the tables (R191). -/

namespace Sys2Proof.Machine

theorem readReg_applyReset (r : Reg) (s : State) : readReg r (applyReset s) = 0#32 := by
  have hread : readReg r (applyReset s) = readReg r State.reset := by cases r <;> rfl
  exact hread.trans (resetStateReadsZero r)

/-- Settles O47: the fields are those of `State.reset`, and STATUS, STATE and RKEY are registers, which read 0. -/
theorem resetInputClearsRegisters : Obligations.ResetInputClearsRegisters := fun s =>
  ⟨applyReset s, perform_reset s, rfl, rfl, rfl, rfl, readReg_applyReset .status s, rfl, rfl,
    fun c => ⟨readReg_applyReset (.state c) s, readReg_applyReset (.rkey c) s⟩⟩

/-- Settles O50: no table is valid at reset, and LASTERR is 0. -/
theorem resetHasInvariant : Obligations.ResetHasInvariant := inv_of_tv_false rfl (statusInv_of_lastErr_zero rfl)

/-- Other table contents in a state with no valid table and no load begun: nothing yet depends on them. -/
theorem agree_of_tv_false_of_tblCount_zero {s : State} (htv : s.tv = false) (hcount : s.tblCount = 0#16)
    (sbox inv : Table) : s.Agree { s with sbox := sbox, inv := inv } := by
  refine ⟨rfl, fun hvalid => absurd (htv.symm.trans hvalid) Bool.false_ne_true, fun _ x hx => ?_⟩
  rw [hcount] at hx
  exact absurd hx (Nat.not_lt_zero _)

/-- A run stops at the first fault. -/
theorem run_succ_of_step_fault {M : Host.Core} {s : M.State} {f : M.Fault} (h : M.step s = .fault f) (k : Nat) :
    M.run (k + 1) s = .fault f := by
  rw [Host.Core.run, h]

/-- A run stops at the first refusal. -/
theorem run_succ_of_step_refused {M : Host.Core} {s : M.State} {r : M.Refusal} (h : M.step s = .refused r) (k : Nat) :
    M.run (k + 1) s = .refused r := by
  rw [Host.Core.run, h]

namespace State.Agree

variable {s s' : State}

/-- The states differ in the tables alone, and no register is a table. -/
theorem readReg_eq (h : s.Agree s') (r : Reg) : Machine.readReg r s' = Machine.readReg r s := by
  rw [h.eq_but_tables]
  cases r <;> rfl

theorem returned_eq (h : s.Agree s') : s'.returned = s.returned := by rw [h.eq_but_tables]

/-- A run of any length does not tell the states apart, as no step of it does. -/
theorem run (k : Nat) (h : s.Agree s') : OutcomesAgree (Host.Core.run core k s) (Host.Core.run core k s') := by
  induction k generalizing s s' with
  | zero => exact .next h
  | succ k ih =>
    have hstep := h.step
    generalize hs : Machine.step s = o at hstep
    generalize hs' : Machine.step s' = o' at hstep
    cases hstep with
    | next h =>
      rw [run_succ_of_step (M := core) hs, run_succ_of_step (M := core) hs']
      exact ih h
    | fault f =>
      rw [run_succ_of_step_fault (M := core) hs, run_succ_of_step_fault (M := core) hs']
      exact .fault f
    | refused r =>
      rw [run_succ_of_step_refused (M := core) hs, run_succ_of_step_refused (M := core) hs']
      exact .refused r

end State.Agree

namespace OutcomesAgree

variable {o o' : Host.Outcome State Fault Refusal}

theorem exists_next (h : OutcomesAgree o o') {t : State} (ht : o = .next t) : ∃ t', o' = .next t' ∧ t.Agree t' := by
  subst ht
  cases h with
  | next h => exact ⟨_, rfl, h⟩

theorem fault_iff (h : OutcomesAgree o o') (f : Fault) : o = .fault f ↔ o' = .fault f := by
  cases h with
  | next h => simp
  | _ => rfl

theorem refused_iff (h : OutcomesAgree o o') (r : Refusal) : o = .refused r ↔ o' = .refused r := by
  cases h with
  | next h => simp
  | _ => rfl

end OutcomesAgree

/-- Settles O52: at reset the tables do not matter yet, so the two runs agree at every length, and states that agree return
the same words and read the same. -/
theorem resetTablesUnobservable : Obligations.ResetTablesUnobservable := by
  intro inputs sbox inv k run start other
  have hstart : start.Agree other := agree_of_tv_false_of_tblCount_zero rfl rfl sbox inv
  have hrun : OutcomesAgree (run start) (run other) := hstart.run k
  refine ⟨fun t ht => ?_, hrun.fault_iff, hrun.refused_iff⟩
  obtain ⟨t', ht', hagree⟩ := hrun.exists_next ht
  exact ⟨t', ht', hagree.returned_eq, hagree.readReg_eq⟩

end Sys2Proof.Machine
end
